-- ==== Sys2Proof/Word.lean ====
section
/-! DEFINITION. The words of the block: the widths R9, R11 and R51 of spec/ fix, and nothing else. -/

namespace Sys2Proof

/-- A datum on the bus and at every line interface: 64 bits (R9, R11, R35). -/
abbrev Data := BitVec 64

/-- A 32-bit real address as the Exchange receives it (R28, R44). -/
abbrev RealAddr := BitVec 32

/-- The 24-bit bus offset, the V-flag at bit 23 inside it (R44, R71). -/
abbrev Offset := BitVec 24

/-- A drum unit operand `u`: 2 bits (R51). -/
abbrev UnitNo := BitVec 2

/-- One operation record as the outside agents hand it to the block: OPSEL in bits 7:0 (R52), the operands above it.
The places of the operands are the model's (log 3). -/
abbrev OpWord := BitVec 128

end Sys2Proof
end

