-- ==== Sys2Proof/Config.lean ====
section
/-! DEFINITION. The configuration (R7 of spec/00_scope.md): every parameter of the block as plain data, the line
descriptors' type (R14), the reference configuration RC (R8, R46), and the one free value (EXT_READ, R75). -/

namespace Sys2Proof

/-- The lines of a drum unit (R20 to R24). -/
inductive Line where
  | da | sa | ca | ds | cp
  deriving DecidableEq, Repr

/-- A Vx-Store line address (R45): block 0..7, line 0..255. -/
structure VxAddr where
  block : BitVec 3
  line : BitVec 8
  deriving DecidableEq, Repr

/-- The handler `ROUTE` gives an Exchange unit id (R7, R70). The external unit `e` is a number; RC's STORE is 0 (log 13). -/
inductive Handler where
  | unrouted
  | drum (u : Nat)
  | external (e : Nat)
  deriving DecidableEq, Repr

/-- Where a row of the resolver sends an offset: to one line address, or to the line address whose block and line are
the slices `off[blockLo+2:blockLo]` and `off[lineLo+7:lineLo]` (log 12). -/
inductive ResolveTarget where
  | fixed (a : VxAddr)
  | slices (blockLo lineLo : Nat)
  deriving DecidableEq, Repr

/-- One row of `VX_RESOLVE` (R45): it takes the offsets with `off &&& mask = value` (log 12). -/
structure ResolveRow where
  mask : Offset
  value : Offset
  target : ResolveTarget
  deriving DecidableEq, Repr

/-- `CURPOS_VIEW` (R7, R24). -/
inductive CurposView where
  | packedAll
  | ownField
  deriving DecidableEq, Repr

/-- `TRANSFER` (R7, R94): OPEN in the source. The one value is the baseline, which sets the refusal mark (log 10). -/
inductive Transfer where
  | baseline
  deriving DecidableEq, Repr

/-- `RW_POLARITY` (R7, D40): OPEN, and only a transfer would read it (log 10). -/
inductive RwPolarity where
  | oneMeansRead
  | zeroMeansRead
  deriving DecidableEq, Repr

/-- The configuration of R7. It is fixed before the first operation and never changes during a run. -/
structure Config where
  /-- `BPB[u]` for each unit; its length is `N_DRUMS`. -/
  bpb : List Nat
  /-- `ROUTE[id]`, the 16 entries in the order of the ids. -/
  route : List Handler
  /-- `VX_RESOLVE`: the first row that takes the offset answers, and an offset no row takes resolves to none. -/
  resolve : List ResolveRow
  /-- `DRUM_LINE_MAP`: a pair no row names maps to none. -/
  lineMap : List (VxAddr × Line)
  /-- `DISC_ADDRESS_MASK`. -/
  discAddressMask : BitVec 32
  /-- `DECODE_BIT`. -/
  decodeBit : Nat
  /-- `ILLEGAL_REQUEST_BIT`. -/
  illegalRequestBit : Nat
  /-- `CURPOS_VIEW`. -/
  curposView : CurposView
  /-- `TRANSFER`. -/
  transfer : Transfer
  /-- `RW_POLARITY`; `none` where it is not needed. -/
  rwPolarity : Option RwPolarity
  deriving DecidableEq, Repr

/-- `N_DRUMS` (R7): the number of drum units. -/
def Config.nDrums (c : Config) : Nat := c.bpb.length

/-! ### Line descriptors (R14) -/

/-- `write_kind` (R14): the formula a write applies. -/
inductive WriteKind where
  | merge
  | w1c
  | repack (fixed : Data)
  deriving DecidableEq, Repr

/-- `read_transform` (R14): the two forms the lines of this block use (R20, R23; log 16). -/
inductive ReadTransform where
  /-- `v | m`: the bits of `m` read 1. -/
  | forceOnes (m : Data)
  /-- `v & m`: the bits outside `m` read 0. -/
  | keepOnly (m : Data)
  deriving DecidableEq, Repr

/-- `on_write` (R14): the side effects the lines of this block name. Only DA has one (R20; log 16). -/
inductive OnWrite where
  /-- Decode and validate the request being stored (R80). -/
  | validateRequest
  deriving DecidableEq, Repr

/-- The function of a COMPUTED line (R14, R24). -/
inductive ComputedView where
  /-- `CP_value(u)` (R24). -/
  | currentPositions
  deriving DecidableEq, Repr

/-- `source` (R14). -/
inductive LineSource where
  | stored
  | computed (f : ComputedView)
  deriving DecidableEq, Repr

/-- A line descriptor (R14). -/
structure LineDesc where
  width : Nat
  writeMask : Data
  kind : WriteKind
  readTransform : Option ReadTransform
  onWrite : Option OnWrite
  source : LineSource
  deriving DecidableEq, Repr

/-! ### The reference configuration -/

/-- RC, the reference configuration of R8, with the resolver and line map of R46. It is the spec's own choice and serves
the test vectors; no meaning reads it, and State.reset carries it (log 1). -/
def Config.rc : Config where
  bpb := [32, 32]
  route := [.external 0, .drum 0, .drum 1, .unrouted, .unrouted, .unrouted, .unrouted, .unrouted,
    .unrouted, .unrouted, .unrouted, .unrouted, .unrouted, .unrouted, .unrouted, .unrouted]
  resolve := [⟨0xFFF800#24, 0x800000#24, .slices 8 0⟩]
  lineMap := [(⟨0, 0⟩, .da), (⟨0, 1⟩, .sa), (⟨0, 2⟩, .ca), (⟨0, 3⟩, .ds), (⟨0, 4⟩, .cp)]
  discAddressMask := 0x403FFF3F#32
  decodeBit := 7
  illegalRequestBit := 6
  curposView := .packedAll
  transfer := .baseline
  rwPolarity := none

/-! ### The free value -/

/-- `EXT_READ` (R7, R75): "the block fixes nothing about the value and a model must admit any 64-bit value". A constant
with no body, applied to the number of the draw, the external unit and the offset (log 8). -/
opaque Config.extRead (draw e : Nat) (off : Offset) : Data

end Sys2Proof
end

