-- ==== Sys2Proof/Machine/Flags.lean ====
section
/-! DEFINITION. The flags of disc status (R19) and the condition that sets or clears them (R80). -/

namespace Sys2Proof

/-- `F = (1 << DECODE_BIT) | (1 << ILLEGAL_REQUEST_BIT)` (R80). -/
def Config.flagPair (c : Config) : BitVec 32 := (1#32 <<< c.decodeBit) ||| (1#32 <<< c.illegalRequestBit)

/-- The four conditions of an illegal request (R80). -/
def requestIllegal (attached : Bool) (bpb : Nat) (block : BitVec 6) (size : BitVec 8) : Bool :=
  !attached || decide (bpb ≤ block.toNat) || size == 0 || decide (bpb < size.toNat)

/-- DS after the validation of a request (R80): both flags set, or both cleared. -/
def Config.flagsAfter (c : Config) (ds : BitVec 32) (illegal : Bool) : BitVec 32 :=
  if illegal then ds ||| c.flagPair else ds &&& ~~~c.flagPair

end Sys2Proof
end

