-- ==== Sys2Proof/Machine/Lines.lean ====
section
/-! DEFINITION. The drum unit's five line descriptors (R20 to R24, R77) and what a descriptor does with a written
datum and with a stored value (R57 to R64). -/

namespace Sys2Proof

/-- Bits 63:0 cut to the line's width and widened again: `zext_64(d[W-1:0])` (R11, R64). -/
def LineDesc.cut (D : LineDesc) (d : Data) : Data := (d.setWidth D.width).setWidth 64

/-- The value a write leaves in a STORED line (R58): MERGE (R59), W1C (R60), REPACK (R61), after the cut of R64. -/
def LineDesc.newValue (D : LineDesc) (old d : Data) : Data :=
  let x := D.cut d
  match D.kind with
  | .merge => (old &&& ~~~D.writeMask) ||| (x &&& D.writeMask)
  | .w1c => old &&& ~~~(x &&& D.writeMask)
  | .repack fixed => (x &&& D.writeMask) ||| fixed

/-- A read transform applied to a stored value (R14, R57). -/
def ReadTransform.apply (t : ReadTransform) (v : Data) : Data :=
  match t with
  | .forceOnes m => v ||| m
  | .keepOnly m => v &&& m

/-- What a read of a STORED line returns for the stored value `v` (R57). -/
def LineDesc.readValue (D : LineDesc) (v : Data) : Data :=
  match D.readTransform with
  | none => v
  | some t => t.apply v

/-- The disc-address fixed bit, bit 31 (R9, R20). -/
def daFixedBit : BitVec 32 := 0x80000000#32

/-- The store- and complete-address mask (R9, R21, R22). -/
def addressMask : BitVec 28 := 0x0FFFFFFF#28

/-- The disc-status writable mask (R9, R23, C4). -/
def dsWriteMask : BitVec 32 := 0x7FFFDBCF#32

/-- The bits of disc status a read returns: all but the unit field 3:0 (R23, R85). -/
def dsReadMask : BitVec 32 := 0xFFFFFFF0#32

/-- The five descriptors (R20 to R24; the table of R77). -/
def Config.lineDesc (c : Config) (X : Line) : LineDesc :=
  match X with
  | .da => { width := 32, writeMask := c.discAddressMask.setWidth 64, kind := .repack (daFixedBit.setWidth 64),
             readTransform := some (.forceOnes (daFixedBit.setWidth 64)), onWrite := some .validateRequest, source := .stored }
  | .sa => { width := 28, writeMask := addressMask.setWidth 64, kind := .merge, readTransform := none, onWrite := none, source := .stored }
  | .ca => { width := 28, writeMask := addressMask.setWidth 64, kind := .merge, readTransform := none, onWrite := none, source := .stored }
  | .ds => { width := 32, writeMask := dsWriteMask.setWidth 64, kind := .w1c,
             readTransform := some (.keepOnly (dsReadMask.setWidth 64)), onWrite := none, source := .stored }
  | .cp => { width := 24, writeMask := 0, kind := .merge, readTransform := none, onWrite := none, source := .computed .currentPositions }

end Sys2Proof
end

