-- ==== Sys2Proof/Syntax.lean ====
section
/-! DEFINITION. The operations of R52 (spec/30_encoding.md), one constructor per row of spec/opcode_table.json. -/

namespace Sys2Proof

/-- How VR and VW name a line, the two forms of R55: by the line's name (`VR u, X`: the pair DRUM_LINE_MAP gives X) or
by the pair itself (`VR u, (block, line)`). In VR.NONE and VW.NONE the form without a pair stands for any pair that names
no line: all of them act alike (R66, R89) (log 4). -/
inductive LineOperand where
  | named
  | pair (block : BitVec 3) (line : BitVec 8)
  deriving DecidableEq, Repr

/-- The closed set of operations (R52). -/
inductive Instr where
  /-- BR: bus read (R72). -/
  | br (addr : RealAddr)
  /-- BW: bus write (R73). -/
  | bw (addr : RealAddr) (data : Data)
  /-- VR.DA: read the disc-address line (R78). -/
  | vrDa (u : UnitNo) (at_ : LineOperand)
  /-- VR.SA (R81). -/
  | vrSa (u : UnitNo) (at_ : LineOperand)
  /-- VR.CA (R83). -/
  | vrCa (u : UnitNo) (at_ : LineOperand)
  /-- VR.DS (R85). -/
  | vrDs (u : UnitNo) (at_ : LineOperand)
  /-- VR.CP (R87). -/
  | vrCp (u : UnitNo) (at_ : LineOperand)
  /-- VR.NONE: read an unmapped pair (R89). -/
  | vrNone (u : UnitNo) (at_ : LineOperand)
  /-- VW.DA: write the disc-address line, issuing a request (R79). -/
  | vwDa (u : UnitNo) (at_ : LineOperand) (data : Data)
  /-- VW.SA (R82). -/
  | vwSa (u : UnitNo) (at_ : LineOperand) (data : Data)
  /-- VW.CA (R84). -/
  | vwCa (u : UnitNo) (at_ : LineOperand) (data : Data)
  /-- VW.DS: clear-on-write-1 (R86). -/
  | vwDs (u : UnitNo) (at_ : LineOperand) (data : Data)
  /-- VW.CP (R88). -/
  | vwCp (u : UnitNo) (at_ : LineOperand) (data : Data)
  /-- VW.NONE: write an unmapped pair (R89). -/
  | vwNone (u : UnitNo) (at_ : LineOperand) (data : Data)
  /-- TICK: one cycle of the cycle driver (R91). -/
  | tick
  /-- ADV: advance one unit's rotation (R90). -/
  | adv (u : UnitNo)
  /-- RESET (R110). -/
  | reset
  /-- ATTACH (R95). -/
  | attach (u : UnitNo)
  /-- DETACH (R96). -/
  | detach (u : UnitNo)
  /-- DEP.DA: host deposit (R68). -/
  | depDa (u : UnitNo) (value : Data)
  /-- DEP.SA (R68). -/
  | depSa (u : UnitNo) (value : Data)
  /-- DEP.CA (R68). -/
  | depCa (u : UnitNo) (value : Data)
  /-- DEP.DS (R68). -/
  | depDs (u : UnitNo) (value : Data)
  /-- EXAM.DA: host examine (R69). -/
  | examDa (u : UnitNo)
  /-- EXAM.SA (R69). -/
  | examSa (u : UnitNo)
  /-- EXAM.CA (R69). -/
  | examCa (u : UnitNo)
  /-- EXAM.DS (R69). -/
  | examDs (u : UnitNo)
  /-- EXAM.CP (R69). -/
  | examCp (u : UnitNo)
  /-- RF.READ: read a line of a RegisterFile (R57). -/
  | rfRead (rf : BitVec 8) (block : BitVec 3) (line : BitVec 8)
  /-- RF.WRITE: write a line of a RegisterFile (R58). -/
  | rfWrite (rf : BitVec 8) (block : BitVec 3) (line : BitVec 8) (data : Data)
  deriving DecidableEq, Repr

end Sys2Proof
end

