-- ==== Sys2Proof/Machine/Operands.lean ====
section
/-! DEFINITION. The operand forms: the real address (R44), the route (R70), the resolver (R45), the line map (R45), the
line operand of VR and VW (R52, R55), and the fields of a disc-address word (R47, R51). -/

namespace Sys2Proof

/-! ### The real address (R44, R70) -/

/-- `unit = a[27:24]`; bits 31:28 take no part (R70). -/
def addrUnit (a : RealAddr) : BitVec 4 := a.extractLsb' 24 4

/-- `off = a[23:0]`, passed on unchanged (R70, R71). -/
def addrOffset (a : RealAddr) : Offset := a.extractLsb' 0 24

/-! ### The configuration's tables -/

/-- `ROUTE[id]` (R70). -/
def Config.routeOf (c : Config) (id : BitVec 4) : Handler := c.route.getD id.toNat .unrouted

/-- `BPB[u]` (R7). The default stands for no unit: every caller checks `u < N_DRUMS` first. -/
def Config.bpbOf (c : Config) (u : Nat) : Nat := c.bpb.getD u 1

/-- The row takes the offset. -/
def ResolveRow.takes (r : ResolveRow) (off : Offset) : Bool := off &&& r.mask == r.value

/-- The line address a target gives an offset (log 12). -/
def ResolveTarget.at (t : ResolveTarget) (off : Offset) : VxAddr :=
  match t with
  | .fixed a => a
  | .slices blockLo lineLo => ⟨off.extractLsb' blockLo 3, off.extractLsb' lineLo 8⟩

/-- `VX_RESOLVE(off)` (R45). -/
def Config.resolveOffset (c : Config) (off : Offset) : Option VxAddr :=
  match c.resolve.find? (fun r => r.takes off) with
  | none => none
  | some r => some (r.target.at off)

/-- `DRUM_LINE_MAP(block, line)` (R45). -/
def Config.lineAt (c : Config) (a : VxAddr) : Option Line :=
  match c.lineMap.find? (fun p => p.1 == a) with
  | none => none
  | some p => some p.2

/-- The pair DRUM_LINE_MAP gives a line: what the notation `VR u, X` of R55 names. -/
def Config.addrOf (c : Config) (X : Line) : Option VxAddr :=
  match c.lineMap.find? (fun p => p.2 == X) with
  | none => none
  | some p => some p.1

/-! ### The line operand of VR.X and VW.X -/

/-- The pair the operand names. -/
def LineOperand.addr (c : Config) (X : Line) (r : LineOperand) : Option VxAddr :=
  match r with
  | .named => c.addrOf X
  | .pair b l => some ⟨b, l⟩

/-- The pair, where DRUM_LINE_MAP gives it the line of the selector's SUB: "SUB is the code of the line the (block,
line) operand names through DRUM_LINE_MAP" (R52). Where it does not, selector and operand are no operation of the closed
set (log 5). -/
def LineOperand.locate (c : Config) (X : Line) (r : LineOperand) : Option VxAddr :=
  match r.addr c X with
  | none => none
  | some a => if c.lineAt a = some X then some a else none

/-- The operand of VR.NONE or VW.NONE names no line: its pair is unmapped, or it gives no pair (log 4). -/
def LineOperand.unmapped (c : Config) (r : LineOperand) : Bool :=
  match r with
  | .named => true
  | .pair b l => c.lineAt ⟨b, l⟩ == none

/-- A real address of line X of unit u: an address `RA_VX_DRUM(u, X)` may stand for (R45, R56). -/
def Config.addresses (c : Config) (a : RealAddr) (u : Nat) (X : Line) : Bool :=
  match c.routeOf (addrUnit a), c.resolveOffset (addrOffset a) with
  | .drum v, some p => v == u && c.lineAt p == some X
  | _, _ => false

/-! ### The fields of a disc-address word (R47, R51) -/

/-- RW, bit 30. -/
def daRw (w : BitVec 32) : Bool := w.getLsbD 30
/-- DISC, bits 29:20. -/
def daDisc (w : BitVec 32) : BitVec 10 := w.extractLsb' 20 10
/-- BAND, bits 19:14. -/
def daBand (w : BitVec 32) : BitVec 6 := w.extractLsb' 14 6
/-- BLOCK, bits 13:8. -/
def daBlock (w : BitVec 32) : BitVec 6 := w.extractLsb' 8 6
/-- SIZE, bits 7:0. -/
def daSize (w : BitVec 32) : BitVec 8 := w.extractLsb' 0 8

end Sys2Proof
end

