-- ==== Sys2Proof/Decode.lean ====
section
/-! DEFINITION. The operation selector (R52) and the operation record, the decoder (total, rejecting by name, R53), and
after it the encoder. The places of the operands in the record are the model's (log 3). -/

namespace Sys2Proof

/-- An operation record, field by field: OPSEL (R52), the operand `u` or `rf`, the line operand's line, block and form
bit, four spare bits, `addr` and `data` (or `value`). -/
structure OpRecord where
  opsel : BitVec 8
  unit : BitVec 8
  line : BitVec 8
  block : BitVec 3
  pairForm : BitVec 1
  spare : BitVec 4
  addr : RealAddr
  data : Data
  deriving DecidableEq, Repr

/-- The record in a 128-bit word: OPSEL in bits 7:0, unit 15:8, line 23:16, block 26:24, pairForm 27, spare 31:28,
addr 63:32, data 127:64 (log 3). -/
def OpRecord.ofWord (w : OpWord) : OpRecord where
  opsel := w.extractLsb' 0 8
  unit := w.extractLsb' 8 8
  line := w.extractLsb' 16 8
  block := w.extractLsb' 24 3
  pairForm := w.extractLsb' 27 1
  spare := w.extractLsb' 28 4
  addr := w.extractLsb' 32 32
  data := w.extractLsb' 64 64

/-- Why a record is no operation. -/
inductive DecodeError where
  /-- An OPSEL not in the table of R52: "refused: the model has no meaning for it" (R53). -/
  | noSuchSelector
  /-- The field of the operand `u` holds 4 or more, so `u >= N_DRUMS` under every configuration (R53, R7). -/
  | unitOutOfRange
  /-- A bit is set in a field the selector's operands do not use (log 3). -/
  | strayOperandBits
  deriving DecidableEq, Repr

/-! ### The decoder -/

/-- The operand `u`, 2 bits (R51). -/
def OpRecord.unitNo (r : OpRecord) : Option UnitNo := if r.unit.toNat < 4 then some (r.unit.setWidth 2) else none

/-- The unused fields, named one by one, hold 0. -/
def OpRecord.noUnit (r : OpRecord) : Bool := r.unit == 0
def OpRecord.noPair (r : OpRecord) : Bool := r.line == 0 && r.block == 0
def OpRecord.noForm (r : OpRecord) : Bool := r.pairForm == 0 && r.spare == 0
def OpRecord.noAddr (r : OpRecord) : Bool := r.addr == 0
def OpRecord.noData (r : OpRecord) : Bool := r.data == 0

/-- The instruction, where the record's other fields are clear. -/
def decodeWhen (clear : Bool) (i : Instr) : Except DecodeError Instr :=
  if clear then .ok i else .error .strayOperandBits

/-- An operation with the operand `u`. -/
def OpRecord.withUnit (r : OpRecord) (clear : Bool) (f : UnitNo → Instr) : Except DecodeError Instr :=
  match r.unitNo with
  | none => .error .unitOutOfRange
  | some u => decodeWhen clear (f u)

/-- An operation with the operand `u` and a line operand: pairForm 0 names the line by the selector's SUB and leaves
block and line clear; pairForm 1 gives the pair (R55; log 4). -/
def OpRecord.withLine (r : OpRecord) (clear : Bool) (f : UnitNo → LineOperand → Instr) : Except DecodeError Instr :=
  if r.pairForm = 0 then r.withUnit (clear && r.noPair && r.spare == 0) (fun u => f u .named)
  else r.withUnit (clear && r.spare == 0) (fun u => f u (.pair r.block r.line))

/-- The decoder on fields: one row per selector of R52. -/
def decodeRecord (r : OpRecord) : Except DecodeError Instr :=
  match r.opsel.toNat with
  | 0x10 => decodeWhen (r.noUnit && r.noPair && r.noForm && r.noData) (.br r.addr)
  | 0x11 => decodeWhen (r.noUnit && r.noPair && r.noForm) (.bw r.addr r.data)
  | 0x20 => r.withLine (r.noAddr && r.noData) .vrDa
  | 0x21 => r.withLine (r.noAddr && r.noData) .vrSa
  | 0x22 => r.withLine (r.noAddr && r.noData) .vrCa
  | 0x23 => r.withLine (r.noAddr && r.noData) .vrDs
  | 0x24 => r.withLine (r.noAddr && r.noData) .vrCp
  | 0x2F => r.withLine (r.noAddr && r.noData) .vrNone
  | 0x30 => r.withLine r.noAddr (fun u a => .vwDa u a r.data)
  | 0x31 => r.withLine r.noAddr (fun u a => .vwSa u a r.data)
  | 0x32 => r.withLine r.noAddr (fun u a => .vwCa u a r.data)
  | 0x33 => r.withLine r.noAddr (fun u a => .vwDs u a r.data)
  | 0x34 => r.withLine r.noAddr (fun u a => .vwCp u a r.data)
  | 0x3F => r.withLine r.noAddr (fun u a => .vwNone u a r.data)
  | 0x40 => decodeWhen (r.noUnit && r.noPair && r.noForm && r.noAddr && r.noData) .tick
  | 0x41 => r.withUnit (r.noPair && r.noForm && r.noAddr && r.noData) .adv
  | 0x50 => decodeWhen (r.noUnit && r.noPair && r.noForm && r.noAddr && r.noData) .reset
  | 0x51 => r.withUnit (r.noPair && r.noForm && r.noAddr && r.noData) .attach
  | 0x52 => r.withUnit (r.noPair && r.noForm && r.noAddr && r.noData) .detach
  | 0x60 => r.withUnit (r.noPair && r.noForm && r.noAddr) (fun u => .depDa u r.data)
  | 0x61 => r.withUnit (r.noPair && r.noForm && r.noAddr) (fun u => .depSa u r.data)
  | 0x62 => r.withUnit (r.noPair && r.noForm && r.noAddr) (fun u => .depCa u r.data)
  | 0x63 => r.withUnit (r.noPair && r.noForm && r.noAddr) (fun u => .depDs u r.data)
  | 0x70 => r.withUnit (r.noPair && r.noForm && r.noAddr && r.noData) .examDa
  | 0x71 => r.withUnit (r.noPair && r.noForm && r.noAddr && r.noData) .examSa
  | 0x72 => r.withUnit (r.noPair && r.noForm && r.noAddr && r.noData) .examCa
  | 0x73 => r.withUnit (r.noPair && r.noForm && r.noAddr && r.noData) .examDs
  | 0x74 => r.withUnit (r.noPair && r.noForm && r.noAddr && r.noData) .examCp
  | 0x80 => decodeWhen (r.noForm && r.noAddr && r.noData) (.rfRead r.unit r.block r.line)
  | 0x81 => decodeWhen (r.noForm && r.noAddr) (.rfWrite r.unit r.block r.line r.data)
  | _ => .error .noSuchSelector

/-- The decoder, total on every 128-bit word. -/
def decode (w : OpWord) : Except DecodeError Instr := decodeRecord (OpRecord.ofWord w)

/-- The record whose low `nbits` bits are `w` and whose other bits are 0. -/
def tableWord (nbits w : Nat) : OpWord := BitVec.ofNat 128 (w % 2 ^ nbits)

/-- What the decoder reads from an operation whose bits are `w`, numbered as spec/opcode_table.json numbers them. -/
def decodeTableWord (nbits w : Nat) : Option Instr :=
  match decode (tableWord nbits w) with
  | .ok i => some i
  | .error _ => none

/-! ### The encoder -/

/-- A record with a selector and no operand. -/
def OpRecord.bare (opsel : BitVec 8) : OpRecord := ⟨opsel, 0, 0, 0, 0, 0, 0, 0⟩

/-- The record of a unit-level Vx-Store operation. -/
def OpRecord.vx (opsel : BitVec 8) (u : UnitNo) (r : LineOperand) (data : Data) : OpRecord :=
  match r with
  | .named => { OpRecord.bare opsel with unit := u.setWidth 8, data := data }
  | .pair b l => { OpRecord.bare opsel with unit := u.setWidth 8, line := l, block := b, pairForm := 1, data := data }

/-- The record of an operation with the operand `u` and a datum. -/
def OpRecord.onUnit (opsel : BitVec 8) (u : UnitNo) (data : Data) : OpRecord :=
  { OpRecord.bare opsel with unit := u.setWidth 8, data := data }

/-- The record of an operation with a unit field, an explicit pair and a datum. -/
def OpRecord.atPair (opsel unit : BitVec 8) (b : BitVec 3) (l : BitVec 8) (data : Data) : OpRecord :=
  { OpRecord.bare opsel with unit := unit, line := l, block := b, data := data }

/-- The encoder on fields, from the same table (R52). -/
def encodeRecord (i : Instr) : OpRecord :=
  match i with
  | .br a => { OpRecord.bare 0x10 with addr := a }
  | .bw a d => { OpRecord.bare 0x11 with addr := a, data := d }
  | .vrDa u r => .vx 0x20 u r 0
  | .vrSa u r => .vx 0x21 u r 0
  | .vrCa u r => .vx 0x22 u r 0
  | .vrDs u r => .vx 0x23 u r 0
  | .vrCp u r => .vx 0x24 u r 0
  | .vrNone u r => .vx 0x2F u r 0
  | .vwDa u r d => .vx 0x30 u r d
  | .vwSa u r d => .vx 0x31 u r d
  | .vwCa u r d => .vx 0x32 u r d
  | .vwDs u r d => .vx 0x33 u r d
  | .vwCp u r d => .vx 0x34 u r d
  | .vwNone u r d => .vx 0x3F u r d
  | .tick => .bare 0x40
  | .adv u => .onUnit 0x41 u 0
  | .reset => .bare 0x50
  | .attach u => .onUnit 0x51 u 0
  | .detach u => .onUnit 0x52 u 0
  | .depDa u v => .onUnit 0x60 u v
  | .depSa u v => .onUnit 0x61 u v
  | .depCa u v => .onUnit 0x62 u v
  | .depDs u v => .onUnit 0x63 u v
  | .examDa u => .onUnit 0x70 u 0
  | .examSa u => .onUnit 0x71 u 0
  | .examCa u => .onUnit 0x72 u 0
  | .examDs u => .onUnit 0x73 u 0
  | .examCp u => .onUnit 0x74 u 0
  | .rfRead rf b l => .atPair 0x80 rf b l 0
  | .rfWrite rf b l d => .atPair 0x81 rf b l d

/-- The record as a word (log 3). -/
def OpRecord.toWord (r : OpRecord) : OpWord :=
  r.data ++ r.addr ++ r.spare ++ r.pairForm ++ r.block ++ r.line ++ r.unit ++ r.opsel

/-- The word of an operation. -/
def encode (i : Instr) : OpWord := (encodeRecord i).toWord

end Sys2Proof
end

