-- ==== Sys2Proof/Machine/State.lean ====
section
/-! DEFINITION. State as plain data: R13's state of the block, the configuration it runs under, and the model's own
interface fields. The three outcomes' reasons. The machine at creation (R109) and right after reset. -/

namespace Sys2Proof.Machine

/-- A request's fields, "copied from the stored DA value when the request is accepted" (R27). -/
structure Request where
  rw : Bool
  disc : BitVec 10
  band : BitVec 6
  block : BitVec 6
  size : BitVec 8
  deriving DecidableEq, Repr

/-- `ReqState` (R27): None, Pending (legal, waiting for rotation), InTransfer (start block reached). -/
inductive ReqState where
  | noRequest
  | pending (p : Request)
  | inTransfer (p : Request)
  deriving DecidableEq, Repr

/-- A drum unit `U[u]` (R13). -/
structure DrumUnit where
  /-- `L(DA)` (R20). -/
  da : BitVec 32
  /-- `L(SA)` (R21). -/
  sa : BitVec 28
  /-- `L(CA)` (R22). -/
  ca : BitVec 28
  /-- `L(DS)` (R23). -/
  ds : BitVec 32
  /-- The rotational position (R25). -/
  pos : Nat
  /-- A backing medium is present (R26). -/
  attached : Bool
  /-- The request (R27). -/
  req : ReqState
  deriving DecidableEq, Repr

/-- A drum unit at creation (R109). -/
def DrumUnit.created : DrumUnit := ⟨0, 0, 0, 0, 0, false, .noRequest⟩

/-- The access a diagnostic record names (R29). -/
inductive BusOp where
  | read
  | write
  deriving DecidableEq, Repr

/-- A diagnostic record `(op, address, data or none)` (R29). -/
structure DiagRecord where
  op : BusOp
  addr : RealAddr
  data : Option Data
  deriving DecidableEq, Repr

/-- The reasons of the refusal mark: "the only such reason is UnmodelledTransfer" (R30). -/
inductive MarkReason where
  | unmodelledTransfer
  deriving DecidableEq, Repr

/-- A write forwarded to an external unit, `(e, offset, data)` (R31). -/
structure ExtWrite where
  e : Nat
  offset : Offset
  data : Data
  deriving DecidableEq, Repr

/-- The machine. `units`, `diag`, `refused` and `extLog` are R13's state; `cfg` is the configuration of R7, which no
operation changes (log 1); `result`, `issued` and `draws` are the model's own (log 2, 7, 8). -/
structure State where
  /-- The configuration (R7): constant during a run. -/
  cfg : Config
  /-- `U[u]` for `0 <= u < N_DRUMS` (R13). -/
  units : List DrumUnit
  /-- The diagnostic log, oldest record first (R29). -/
  diag : List DiagRecord
  /-- The refusal mark (R30). -/
  refused : Option MarkReason
  /-- The forwarded external writes, in issue order (R31). -/
  extLog : List ExtWrite
  /-- The datum the last operation returned; none where it returns nothing (the result column of R52). -/
  result : Option Data
  /-- The operations issued and not yet taken, first to be taken first (R6, R40). -/
  issued : List OpWord
  /-- How many external reads have been drawn (R75). -/
  draws : Nat
  deriving DecidableEq, Repr

/-- The block raises no exception, trap or fault (R97), and no case is a hang (spec/93): there is no fault. -/
inductive Fault where
  deriving DecidableEq, Repr

/-- Why the machine gives no meaning. Every one is safe: the machine stops, and nothing is claimed of what follows. -/
inductive Refusal where
  /-- Raised by an arm of exec whose operation has no meaning yet. Safe. -/
  | notModelled (mnemonic : String)
  /-- Raised by step: the configuration fails a check of R67, "a model refuses a configuration that fails one". Safe. -/
  | illFormedConfiguration
  /-- Raised by step: the record is no operation of the closed set (R53). Safe. -/
  | undecodable (why : DecodeError)
  /-- Raised by every operation with an operand `u`: `u >= N_DRUMS` is refused (R52, R53). Safe. -/
  | noSuchUnit
  /-- Raised by RF.READ and RF.WRITE: the configuration declares no such RegisterFile (R52; log 11). Safe. -/
  | noSuchRegisterFile
  /-- Raised by VR.X and VW.X: the (block, line) operand names another line than the selector's SUB (R52; log 5). Safe. -/
  | selectorMismatch
  deriving DecidableEq, Repr

/-- The state at creation under a configuration (R109). -/
def State.created (c : Config) : State where
  cfg := c
  units := List.replicate c.nDrums DrumUnit.created
  diag := []
  refused := none
  extLog := []
  result := none
  issued := []
  draws := 0

/-- The machine right after reset: the creation values of R109 (10_state.md §9) under RC (log 1). -/
def State.reset : State := State.created Config.rc

end Sys2Proof.Machine
end

