-- ==== Sys2Proof/Machine/Ops.lean ====
section
/-! DEFINITION. The shared operations: access to a unit and to its lines, the RegisterFile's read and write (R57 to R66),
request validation (R80), rotation and the start of a transfer (R90 to R94), the Exchange (R70 to R76), and how an
operation ends. The block has no exception entry and no return from one (R101, R102), so none stands here. -/

namespace Sys2Proof.Machine

/-! ### Units and lines -/

/-- `U[u]`. The default stands for no unit: every operation checks `u < N_DRUMS` first. -/
def State.unit (s : State) (u : Nat) : DrumUnit := s.units.getD u DrumUnit.created

/-- `U[u] <- d`. -/
def State.setUnit (s : State) (u : Nat) (d : DrumUnit) : State := { s with units := s.units.set u d }

/-- `zext_64(L(X))`, the raw stored value; CP has none (R13). -/
def DrumUnit.line (d : DrumUnit) (X : Line) : Data :=
  match X with
  | .da => d.da.setWidth 64
  | .sa => d.sa.setWidth 64
  | .ca => d.ca.setWidth 64
  | .ds => d.ds.setWidth 64
  | .cp => 0

/-- `L(X) <- v[W-1:0]`; CP stores nothing (R13). -/
def DrumUnit.setLine (d : DrumUnit) (X : Line) (v : Data) : DrumUnit :=
  match X with
  | .da => { d with da := v.setWidth 32 }
  | .sa => { d with sa := v.setWidth 28 }
  | .ca => { d with ca := v.setWidth 28 }
  | .ds => { d with ds := v.setWidth 32 }
  | .cp => d

/-! ### The current-positions view (R24) -/

/-- One unit's field: `zext_64(pos[5:0]) << (6*v)`. -/
def positionField (v pos : Nat) : Data := (BitVec.ofNat 6 pos).setWidth 64 <<< (6 * v)

/-- The OR of the fields of the units from index `v` on. -/
def packedPositions (v : Nat) : List DrumUnit → Data
  | [] => 0
  | d :: rest => positionField v d.pos ||| packedPositions (v + 1) rest

/-- `CP_value(u)` (R24). -/
def State.cpValue (s : State) (u : Nat) : Data :=
  match s.cfg.curposView with
  | .packedAll => packedPositions 0 s.units
  | .ownField => positionField u (s.unit u).pos

/-- The function of a COMPUTED line. -/
def State.view (s : State) (u : Nat) (f : ComputedView) : Data :=
  match f with
  | .currentPositions => s.cpValue u

/-! ### Request validation (R80), the on_write of DA -/

/-- The request a disc-address word names (R27, R47, R51). -/
def requestOf (w : BitVec 32) : Request := ⟨daRw w, daDisc w, daBand w, daBlock w, daSize w⟩

/-- `validate(u, new)` (R80): it writes DS and the request of the unit, and nothing else. -/
def DrumUnit.validate (c : Config) (bpb : Nat) (new : BitVec 32) (d : DrumUnit) : DrumUnit :=
  let illegal := requestIllegal d.attached bpb (daBlock new) (daSize new)
  { d with ds := c.flagsAfter d.ds illegal, req := if illegal then .noRequest else .pending (requestOf new) }

/-- `on_write(old, new)` (R14, R65). -/
def DrumUnit.runOnWrite (c : Config) (bpb : Nat) (e : OnWrite) (_old new : Data) (d : DrumUnit) : DrumUnit :=
  match e with
  | .validateRequest => d.validate c bpb (new.setWidth 32)

/-! ### The RegisterFile of a drum unit -/

/-- The write of a mapped line (R58): the new value is computed, on_write runs, the line takes the value (R65); a
COMPUTED line absorbs it (R63). -/
def DrumUnit.writeLine (c : Config) (bpb : Nat) (X : Line) (d : Data) (unit : DrumUnit) : DrumUnit :=
  let D := c.lineDesc X
  match D.source with
  | .computed _ => unit
  | .stored =>
    let old := unit.line X
    let new := D.newValue old d
    match D.onWrite with
    | none => unit.setLine X new
    | some e => (unit.runOnWrite c bpb e old new).setLine X new

/-- `RF.read(rf, b, l)` on unit u's RegisterFile (R57, R66, R74, R77: vx_read). -/
def State.vxRead (s : State) (u : Nat) (a : VxAddr) : Data :=
  match s.cfg.lineAt a with
  | none => 0
  | some X =>
    let D := s.cfg.lineDesc X
    match D.source with
    | .computed f => D.cut (s.view u f)
    | .stored => D.readValue ((s.unit u).line X)

/-- `RF.write(rf, b, l, d)` on unit u's RegisterFile (R58, R66, R74, R77: vx_write). -/
def State.vxWrite (s : State) (u : Nat) (a : VxAddr) (d : Data) : State :=
  match s.cfg.lineAt a with
  | none => s
  | some X => s.setUnit u ((s.unit u).writeLine s.cfg (s.cfg.bpbOf u) X d)

/-! ### Host access to backing values (R68, R69) -/

/-- `U[u].L(X) <- v[W-1:0]`: no mask, no on_write (R68). -/
def State.deposit (s : State) (u : Nat) (X : Line) (v : Data) : State := s.setUnit u ((s.unit u).setLine X v)

/-- The raw stored value, or CP_value for CP (R69). -/
def State.examine (s : State) (u : Nat) (X : Line) : Data :=
  match X with
  | .cp => s.cpValue u
  | .da => (s.unit u).line .da
  | .sa => (s.unit u).line .sa
  | .ca => (s.unit u).line .ca
  | .ds => (s.unit u).line .ds

/-! ### Rotation (R90 to R94) -/

/-- `refuse(reason)`: the refusal mark, which stays once it is set (R30). -/
def State.mark (s : State) (why : MarkReason) : State :=
  { s with refused := match s.refused with
                      | none => some why
                      | some w => some w }

/-- `transfer_start(u, p)` (R94): the configured TRANSFER; the baseline refuses. -/
def State.transferStart (s : State) (_u : Nat) (_p : Request) : State :=
  match s.cfg.transfer with
  | .baseline => s.mark .unmodelledTransfer

/-- The position moves first (R100): `pos <- (pos + 1) mod BPB[u]`. -/
def DrumUnit.rotate (bpb : Nat) (d : DrumUnit) : DrumUnit := { d with pos := (d.pos + 1) % bpb }

/-- The start test, on the new position (R90): the Pending request whose block the position is. -/
def DrumUnit.arrived (d : DrumUnit) : Option Request :=
  match d.req with
  | .noRequest => none
  | .pending p => if d.pos = p.block.toNat then some p else none
  | .inTransfer _ => none

/-- `advance_cycle(u)` (R90). -/
def State.advance (s : State) (u : Nat) : State :=
  let d := (s.unit u).rotate (s.cfg.bpbOf u)
  match d.arrived with
  | none => s.setUnit u d
  | some p => (s.setUnit u { d with req := .inTransfer p }).transferStart u p

/-- One cycle of the driver (R91): every unit advances once. -/
def State.tick (s : State) : State := (List.range s.cfg.nDrums).foldl State.advance s

/-! ### Reset, attach, detach (R95, R96, R110) -/

/-- A unit after RESET: everything but `attached` (R110). -/
def DrumUnit.reset (d : DrumUnit) : DrumUnit :=
  { d with da := 0, sa := 0, ca := 0, ds := 0, pos := 0, req := .noRequest }

/-- RESET on every unit; diag, ext_log and refused unchanged (R110). -/
def State.resetUnits (s : State) : State := { s with units := s.units.map DrumUnit.reset }

/-- `U[u].attached <- b` (R95, R96). -/
def State.setAttached (s : State) (u : Nat) (b : Bool) : State := s.setUnit u { s.unit u with attached := b }

/-! ### The Exchange (R70 to R76) -/

/-- `diag(op, a, d)`: a record at the end of the log (R29, R76). -/
def State.diagnose (s : State) (op : BusOp) (a : RealAddr) (d : Option Data) : State :=
  { s with diag := s.diag ++ [⟨op, a, d⟩] }

/-- `DrumRead(u, off)` (R74). -/
def State.drumRead (s : State) (u : Nat) (off : Offset) : Data :=
  match s.cfg.resolveOffset off with
  | none => 0
  | some a => s.vxRead u a

/-- `DrumWrite(u, off, d)` (R74). -/
def State.drumWrite (s : State) (u : Nat) (off : Offset) (d : Data) : State :=
  match s.cfg.resolveOffset off with
  | none => s
  | some a => s.vxWrite u a d

/-- `ext_write(e, off, d)`: a recorded event (R31, R75). -/
def State.extWrite (s : State) (e : Nat) (off : Offset) (d : Data) : State :=
  { s with extLog := s.extLog ++ [⟨e, off, d⟩] }

/-! ### How an operation ends -/

/-- The operation returns the datum `v`. -/
def State.answer (s : State) (v : Data) : State := { s with result := some v }

/-- The operation returns nothing. -/
def State.silent (s : State) : State := { s with result := none }

/-- `ext_read(e, off)`: the answer is a draw, and the next draw is another one (R75; log 8). -/
def State.answerDraw (s : State) (e : Nat) (off : Offset) : State :=
  { s with result := some (Config.extRead s.draws e off), draws := s.draws + 1 }

/-- `BusRead(a)` (R72). -/
def State.busRead (s : State) (a : RealAddr) : State :=
  match s.cfg.routeOf (addrUnit a) with
  | .unrouted => (s.diagnose .read a none).answer 0
  | .drum u => s.answer (s.drumRead u (addrOffset a))
  | .external e => s.answerDraw e (addrOffset a)

/-- `BusWrite(a, d)` (R73). -/
def State.busWrite (s : State) (a : RealAddr) (d : Data) : State :=
  match s.cfg.routeOf (addrUnit a) with
  | .unrouted => s.diagnose .write a (some d)
  | .drum u => s.drumWrite u (addrOffset a) d
  | .external e => s.extWrite e (addrOffset a) d

/-- The three outcomes of a step of this machine. -/
abbrev Result := Host.Outcome State Fault Refusal

/-- An operation with the operand `u`: refused where `u >= N_DRUMS` (R52, R53). -/
def onUnit (s : State) (u : UnitNo) (k : Nat → Result) : Result :=
  if u.toNat < s.cfg.nDrums then k u.toNat else .refused .noSuchUnit

/-- An operation VR.X or VW.X: its unit exists and its pair names X (R52; log 5). -/
def onLine (s : State) (X : Line) (u : UnitNo) (r : LineOperand) (k : Nat → VxAddr → Result) : Result :=
  onUnit s u fun v =>
    match r.locate s.cfg X with
    | none => .refused .selectorMismatch
    | some a => k v a

/-- An operation VR.NONE or VW.NONE: its unit exists and its pair names no line (R52, R89; log 5). -/
def onUnmapped (s : State) (u : UnitNo) (r : LineOperand) (k : Result) : Result :=
  onUnit s u fun _ => if r.unmapped s.cfg then k else .refused .selectorMismatch

/-- An operation on a RegisterFile the configuration declares: unit `rf`'s (R16, R17; log 11). -/
def onFile (s : State) (rf : BitVec 8) (k : Nat → Result) : Result :=
  if rf.toNat < s.cfg.nDrums then k rf.toNat else .refused .noSuchRegisterFile

/-- VR.X: the datum a read of the located line returns (R77). -/
def readLine (s : State) (X : Line) (u : UnitNo) (r : LineOperand) : Result :=
  onLine s X u r fun v a => .next (s.answer (s.vxRead v a))

/-- VW.X: the write of the located line (R77). -/
def writeLine (s : State) (X : Line) (u : UnitNo) (r : LineOperand) (d : Data) : Result :=
  onLine s X u r fun v a => .next (s.vxWrite v a d).silent

/-- DEP.X (R68). -/
def depositLine (s : State) (X : Line) (u : UnitNo) (v : Data) : Result :=
  onUnit s u fun w => .next (s.deposit w X v).silent

/-- EXAM.X (R69). -/
def examineLine (s : State) (X : Line) (u : UnitNo) : Result :=
  onUnit s u fun w => .next (s.answer (s.examine w X))

end Sys2Proof.Machine
end

