-- ==== Sys2Proof/Machine/Drum.lean ====
section
/-! DEFINITION. The operations of spec/42_drum_unit.md: the unit-level reads and writes, rotation, attach and detach. -/

namespace Sys2Proof.Machine

/-- VR.DA (R78). -/
def execVrDa (u : UnitNo) (r : LineOperand) (s : State) : Result := readLine s .da u r
/-- VR.SA (R81). -/
def execVrSa (u : UnitNo) (r : LineOperand) (s : State) : Result := readLine s .sa u r
/-- VR.CA (R83). -/
def execVrCa (u : UnitNo) (r : LineOperand) (s : State) : Result := readLine s .ca u r
/-- VR.DS (R85). -/
def execVrDs (u : UnitNo) (r : LineOperand) (s : State) : Result := readLine s .ds u r
/-- VR.CP (R87). -/
def execVrCp (u : UnitNo) (r : LineOperand) (s : State) : Result := readLine s .cp u r

/-- VR.NONE (R89): "The read returns 0" and no state changes. -/
def execVrNone (u : UnitNo) (r : LineOperand) (s : State) : Result := onUnmapped s u r (.next (s.answer 0))

/-- VW.DA (R79): the write, with the validation of R80 as its side effect. -/
def execVwDa (u : UnitNo) (r : LineOperand) (d : Data) (s : State) : Result := writeLine s .da u r d
/-- VW.SA (R82). -/
def execVwSa (u : UnitNo) (r : LineOperand) (d : Data) (s : State) : Result := writeLine s .sa u r d
/-- VW.CA (R84). -/
def execVwCa (u : UnitNo) (r : LineOperand) (d : Data) (s : State) : Result := writeLine s .ca u r d
/-- VW.DS (R86). -/
def execVwDs (u : UnitNo) (r : LineOperand) (d : Data) (s : State) : Result := writeLine s .ds u r d
/-- VW.CP (R88). -/
def execVwCp (u : UnitNo) (r : LineOperand) (d : Data) (s : State) : Result := writeLine s .cp u r d

/-- VW.NONE (R89): "the write is discarded". -/
def execVwNone (u : UnitNo) (r : LineOperand) (_d : Data) (s : State) : Result := onUnmapped s u r (.next s.silent)

/-- TICK (R91). -/
def execTick (s : State) : Result := .next s.tick.silent

/-- ADV (R90). -/
def execAdv (u : UnitNo) (s : State) : Result := onUnit s u fun v => .next (s.advance v).silent

/-- ATTACH (R95). -/
def execAttach (u : UnitNo) (s : State) : Result := onUnit s u fun v => .next (s.setAttached v true).silent

/-- DETACH (R96). -/
def execDetach (u : UnitNo) (s : State) : Result := onUnit s u fun v => .next (s.setAttached v false).silent

end Sys2Proof.Machine
end

