-- ==== Sys2Proof/Machine/Exchange.lean ====
section
/-! DEFINITION. The operations of spec/41_exchange_bus.md: BR and BW. -/

namespace Sys2Proof.Machine

/-- BR: bus read (R72). -/
def execBr (a : RealAddr) (s : State) : Result := .next (s.busRead a)

/-- BW: bus write (R73). -/
def execBw (a : RealAddr) (d : Data) (s : State) : Result := .next (s.busWrite a d).silent

end Sys2Proof.Machine
end

