-- ==== Sys2Proof/Machine/RegisterFile.lean ====
section
/-! DEFINITION. The operations of spec/40_register_file.md: RF.READ, RF.WRITE, the host's DEP and EXAM. -/

namespace Sys2Proof.Machine

/-- RF.READ (R57). -/
def execRfRead (rf : BitVec 8) (b : BitVec 3) (l : BitVec 8) (s : State) : Result :=
  onFile s rf fun u => .next (s.answer (s.vxRead u ⟨b, l⟩))

/-- RF.WRITE (R58). -/
def execRfWrite (rf : BitVec 8) (b : BitVec 3) (l : BitVec 8) (d : Data) (s : State) : Result :=
  onFile s rf fun u => .next (s.vxWrite u ⟨b, l⟩ d).silent

/-- DEP.DA (R68). -/
def execDepDa (u : UnitNo) (v : Data) (s : State) : Result := depositLine s .da u v
/-- DEP.SA (R68). -/
def execDepSa (u : UnitNo) (v : Data) (s : State) : Result := depositLine s .sa u v
/-- DEP.CA (R68). -/
def execDepCa (u : UnitNo) (v : Data) (s : State) : Result := depositLine s .ca u v
/-- DEP.DS: every DS bit, flags included, with no masking (R68). -/
def execDepDs (u : UnitNo) (v : Data) (s : State) : Result := depositLine s .ds u v

/-- EXAM.DA (R69). -/
def execExamDa (u : UnitNo) (s : State) : Result := examineLine s .da u
/-- EXAM.SA (R69). -/
def execExamSa (u : UnitNo) (s : State) : Result := examineLine s .sa u
/-- EXAM.CA (R69). -/
def execExamCa (u : UnitNo) (s : State) : Result := examineLine s .ca u
/-- EXAM.DS (R69). -/
def execExamDs (u : UnitNo) (s : State) : Result := examineLine s .ds u
/-- EXAM.CP (R69). -/
def execExamCp (u : UnitNo) (s : State) : Result := examineLine s .cp u

end Sys2Proof.Machine
end

