-- ==== Sys2Proof/Machine/Reset.lean ====
section
/-! DEFINITION. The operation of spec/70_reset_and_hazards.md: RESET. -/

namespace Sys2Proof.Machine

/-- RESET (R110). -/
def execReset (s : State) : Result := .next s.resetUnits.silent

end Sys2Proof.Machine
end

