-- ==== Sys2Proof/Machine/Dispatch.lean ====
section
/-! DEFINITION. exec: one arm per constructor of Instr, one direct call of its meaning. -/

namespace Sys2Proof.Machine

def exec (i : Instr) (s : State) : Host.Outcome State Fault Refusal :=
  match i with
  | .br a => Sys2Proof.Machine.execBr a s
  | .bw a d => Sys2Proof.Machine.execBw a d s
  | .vrDa u r => Sys2Proof.Machine.execVrDa u r s
  | .vrSa u r => Sys2Proof.Machine.execVrSa u r s
  | .vrCa u r => Sys2Proof.Machine.execVrCa u r s
  | .vrDs u r => Sys2Proof.Machine.execVrDs u r s
  | .vrCp u r => Sys2Proof.Machine.execVrCp u r s
  | .vrNone u r => Sys2Proof.Machine.execVrNone u r s
  | .vwDa u r d => Sys2Proof.Machine.execVwDa u r d s
  | .vwSa u r d => Sys2Proof.Machine.execVwSa u r d s
  | .vwCa u r d => Sys2Proof.Machine.execVwCa u r d s
  | .vwDs u r d => Sys2Proof.Machine.execVwDs u r d s
  | .vwCp u r d => Sys2Proof.Machine.execVwCp u r d s
  | .vwNone u r d => Sys2Proof.Machine.execVwNone u r d s
  | .tick => Sys2Proof.Machine.execTick s
  | .adv u => Sys2Proof.Machine.execAdv u s
  | .reset => Sys2Proof.Machine.execReset s
  | .attach u => Sys2Proof.Machine.execAttach u s
  | .detach u => Sys2Proof.Machine.execDetach u s
  | .depDa u v => Sys2Proof.Machine.execDepDa u v s
  | .depSa u v => Sys2Proof.Machine.execDepSa u v s
  | .depCa u v => Sys2Proof.Machine.execDepCa u v s
  | .depDs u v => Sys2Proof.Machine.execDepDs u v s
  | .examDa u => Sys2Proof.Machine.execExamDa u s
  | .examSa u => Sys2Proof.Machine.execExamSa u s
  | .examCa u => Sys2Proof.Machine.execExamCa u s
  | .examDs u => Sys2Proof.Machine.execExamDs u s
  | .examCp u => Sys2Proof.Machine.execExamCp u s
  | .rfRead rf b l => Sys2Proof.Machine.execRfRead rf b l s
  | .rfWrite rf b l d => Sys2Proof.Machine.execRfWrite rf b l d s

end Sys2Proof.Machine
end

