-- ==== Sys2Proof/Machine/Issue.lean ====
section
/-! DEFINITION. Taking an operation from the order of issue (R6, R36, R40; log 2). -/

namespace Sys2Proof.Machine

/-- The state once the first issued record is taken. -/
def State.taken (s : State) (rest : List OpWord) : State := { s with issued := rest }

/-- The operation at the head of the order of issue, or why it is none. -/
def fetchOp (w : OpWord) : Except DecodeError Instr := decode w

/-- The block takes the next operation of the order of issue and performs it whole (R36). With none issued nothing
happens: the units "do not step on their own" (R6). -/
def State.takeNext (s : State) : Result :=
  match s.issued with
  | [] => .next s
  | w :: rest =>
    match fetchOp w with
    | .error why => .refused (.undecodable why)
    | .ok i => exec i (s.taken rest)

/-- A record put at the head of the order of issue. -/
def State.issueFirst (s : State) (w : OpWord) : State := { s with issued := w :: s.issued }

end Sys2Proof.Machine
end

