-- ==== Sys2Proof/WellFormed.lean ====
section
/-! DEFINITION. Well-formedness: the nine checks of R67 on a configuration (with the constraints of R7), and what makes
an operation one of the closed set under a configuration (R52, R53). -/

namespace Sys2Proof

/-! ### R67, check by check -/

/-- Check 1: `1 <= width <= 64` and `M ⊆ 2^width - 1`. -/
def LineDesc.widthOk (D : LineDesc) : Bool := decide (1 ≤ D.width) && decide (D.width ≤ 64) && D.cut D.writeMask == D.writeMask

/-- Check 2: a REPACK(F) line has `F ⊆ 2^width - 1` and `F & M = 0`. -/
def LineDesc.fixedOk (D : LineDesc) : Bool :=
  match D.kind with
  | .repack fixed => D.cut fixed == fixed && fixed &&& D.writeMask == 0
  | .merge => true
  | .w1c => true

/-- Check 4: a COMPUTED line has `M = 0`, kind MERGE and no on_write. -/
def LineDesc.computedOk (D : LineDesc) : Bool :=
  match D.source with
  | .computed _ => D.writeMask == 0 && D.kind == .merge && D.onWrite == none
  | .stored => true

/-- The lines a side effect writes (R80: validation writes DS). -/
def OnWrite.writes (e : OnWrite) : List Line :=
  match e with
  | .validateRequest => [.ds]

/-- Check 5: no on_write writes its own line. -/
def LineDesc.onWriteOk (D : LineDesc) (own : Line) : Bool :=
  match D.onWrite with
  | none => true
  | some e => !e.writes.contains own

/-- A descriptor passes checks 1, 2, 4 and 5. -/
def LineDesc.wf (D : LineDesc) (own : Line) : Bool := D.widthOk && D.fixedOk && D.computedOk && D.onWriteOk own

/-- Check 3: DECODE_BIT and ILLEGAL_REQUEST_BIT are distinct, in 0x7FFFDBCF and outside bits 3:0. -/
def Config.flagBitsOk (c : Config) : Bool :=
  c.decodeBit != c.illegalRequestBit && dsWriteMask.getLsbD c.decodeBit && dsWriteMask.getLsbD c.illegalRequestBit
    && decide (4 ≤ c.decodeBit) && decide (4 ≤ c.illegalRequestBit)

/-- The five lines. -/
def Line.all : List Line := [.da, .sa, .ca, .ds, .cp]

/-- Check 6: DRUM_LINE_MAP is a map, injective on the five lines, and maps each of them (one row a pair, one row a line). -/
def Config.lineMapOk (c : Config) : Bool :=
  decide ((c.lineMap.map (·.1)).Nodup) && decide ((c.lineMap.map (·.2)).Nodup)
    && Line.all.all (fun X => (c.lineMap.map (·.2)).contains X)

/-- The handler names no drum unit at or above N_DRUMS. -/
def Handler.namesUnitBelow (h : Handler) (n : Nat) : Bool :=
  match h with
  | .drum u => decide (u < n)
  | .external _ => true
  | .unrouted => true

/-- Check 7: ROUTE has its 16 entries, names each drum unit `u < N_DRUMS` exactly once and no other. -/
def Config.routeOk (c : Config) : Bool :=
  decide (c.route.length = 16) && (List.range c.nDrums).all (fun u => c.route.count (.drum u) == 1)
    && c.route.all (fun h => h.namesUnitBelow c.nDrums)

/-- Check 8: `1 <= N_DRUMS <= 4` and `1 <= BPB[u] <= 64`. -/
def Config.sizesOk (c : Config) : Bool :=
  decide (1 ≤ c.nDrums) && decide (c.nDrums ≤ 4) && c.bpb.all (fun b => decide (1 ≤ b) && decide (b ≤ 64))

/-- Check 9: `DISC_ADDRESS_MASK ⊆ 0x7FFFFFFF` and `DISC_ADDRESS_MASK & 0x25A5A5A5 = 0x0025A525`. -/
def Config.discMaskOk (c : Config) : Bool :=
  c.discAddressMask &&& ~~~0x7FFFFFFF#32 == 0 && c.discAddressMask &&& 0x25A5A5A5#32 == 0x0025A525#32

/-- A well-formed configuration (R67). -/
def Config.wf (c : Config) : Bool :=
  Line.all.all (fun X => (c.lineDesc X).wf X) && c.flagBitsOk && c.lineMapOk && c.routeOk && c.sizesOk && c.discMaskOk

/-! ### Operations of the closed set -/

/-- The operand `u` is a drum unit of the configuration (R52, R53). -/
def Config.hasUnit (c : Config) (u : UnitNo) : Bool := decide (u.toNat < c.nDrums)

/-- The line operand names line X (R52). -/
def LineOperand.names (c : Config) (X : Line) (r : LineOperand) : Bool := (r.locate c X).isSome

/-- The operation is one of the closed set under the configuration: its unit exists, its pair names the line of its
selector, its RegisterFile is one the configuration declares (R52, R53; log 5, 11). -/
def Instr.wf (c : Config) (i : Instr) : Bool :=
  match i with
  | .br _ => true
  | .bw _ _ => true
  | .vrDa u r => c.hasUnit u && r.names c .da
  | .vrSa u r => c.hasUnit u && r.names c .sa
  | .vrCa u r => c.hasUnit u && r.names c .ca
  | .vrDs u r => c.hasUnit u && r.names c .ds
  | .vrCp u r => c.hasUnit u && r.names c .cp
  | .vrNone u r => c.hasUnit u && r.unmapped c
  | .vwDa u r _ => c.hasUnit u && r.names c .da
  | .vwSa u r _ => c.hasUnit u && r.names c .sa
  | .vwCa u r _ => c.hasUnit u && r.names c .ca
  | .vwDs u r _ => c.hasUnit u && r.names c .ds
  | .vwCp u r _ => c.hasUnit u && r.names c .cp
  | .vwNone u r _ => c.hasUnit u && r.unmapped c
  | .tick => true
  | .adv u => c.hasUnit u
  | .reset => true
  | .attach u => c.hasUnit u
  | .detach u => c.hasUnit u
  | .depDa u _ => c.hasUnit u
  | .depSa u _ => c.hasUnit u
  | .depCa u _ => c.hasUnit u
  | .depDs u _ => c.hasUnit u
  | .examDa u => c.hasUnit u
  | .examSa u => c.hasUnit u
  | .examCa u => c.hasUnit u
  | .examDs u => c.hasUnit u
  | .examCp u => c.hasUnit u
  | .rfRead rf _ _ => decide (rf.toNat < c.nDrums)
  | .rfWrite rf _ _ _ => decide (rf.toNat < c.nDrums)

end Sys2Proof
end

