-- ==== Sys2Proof/Machine/Step.lean ====
section
/-! DEFINITION. One step of the machine. -/

namespace Sys2Proof.Machine

/-- One step: a configuration that fails a check of R67 is refused; under a well-formed one the next issued operation
is taken (log 2, 6). -/
def step (s : State) : Host.Outcome State Fault Refusal :=
  if s.cfg.wf then s.takeNext else .refused .illFormedConfiguration

/-- The operation whose bits are `w` placed where step takes its next one (log 2). -/
def State.withFetchWord (s : State) (nbits w : Nat) : State := s.issueFirst (tableWord nbits w)

end Sys2Proof.Machine
end

