-- ==== Sys2Proof/Safety.lean ====
section
/-! DEFINITION. The terms claims use: the invariant of a run, the premise R30 asks of a claim, runs of several
operations, and which operation reaches which unit and line. -/

namespace Sys2Proof.Machine

/-! ### The invariant -/

/-- A request that is held was legal: BLOCK < BPB[u] and 1 <= SIZE <= BPB[u] (R27, R80). -/
def ReqState.legalFor (bpb : Nat) (q : ReqState) : Bool :=
  match q with
  | .noRequest => true
  | .pending p => decide (p.block.toNat < bpb) && decide (1 ≤ p.size.toNat) && decide (p.size.toNat ≤ bpb)
  | .inTransfer p => decide (p.block.toNat < bpb) && decide (1 ≤ p.size.toNat) && decide (p.size.toNat ≤ bpb)

/-- The request's start block has been reached (R27). -/
def ReqState.started (q : ReqState) : Bool :=
  match q with
  | .noRequest => false
  | .pending _ => false
  | .inTransfer _ => true

/-- What every run keeps: the configuration is well-formed (R67), there is one unit for each `u < N_DRUMS` (R13), every
position is below BPB[u] (R25), every request held is legal (R80), and a unit is InTransfer only with the refusal mark
set (R94's baseline). -/
abbrev State.Inv (s : State) : Prop :=
  s.cfg.wf = true ∧ s.units.length = s.cfg.nDrums
    ∧ (∀ u, u < s.cfg.nDrums → (s.unit u).pos < s.cfg.bpbOf u)
    ∧ (∀ u, u < s.cfg.nDrums → (s.unit u).req.legalFor (s.cfg.bpbOf u) = true)
    ∧ (∀ u, u < s.cfg.nDrums → (s.unit u).req.started = true → s.refused = some .unmodelledTransfer)

/-- "A claim about a run must take `refused = none` as a premise" (R30). -/
abbrev State.Live (s : State) : Prop := s.Inv ∧ s.refused = none

/-! ### Runs -/

/-- A sequence of operations in their order (R40, R56); it ends at the first that is refused. -/
def execAll : List Instr → State → Result
  | [], s => .next s
  | i :: rest, s =>
    match exec i s with
    | .next t => execAll rest t
    | .fault f => .fault f
    | .refused r => .refused r

/-! ### Which operation reaches what -/

end Sys2Proof.Machine

namespace Sys2Proof

/-- The operand `u` of the operations that have one (R52). -/
def Instr.unitOperand (i : Instr) : Option UnitNo :=
  match i with
  | .br _ => none
  | .bw _ _ => none
  | .vrDa u _ => some u
  | .vrSa u _ => some u
  | .vrCa u _ => some u
  | .vrDs u _ => some u
  | .vrCp u _ => some u
  | .vrNone u _ => some u
  | .vwDa u _ _ => some u
  | .vwSa u _ _ => some u
  | .vwCa u _ _ => some u
  | .vwDs u _ _ => some u
  | .vwCp u _ _ => some u
  | .vwNone u _ _ => some u
  | .tick => none
  | .adv u => some u
  | .reset => none
  | .attach u => some u
  | .detach u => some u
  | .depDa u _ => some u
  | .depSa u _ => some u
  | .depCa u _ => some u
  | .depDs u _ => some u
  | .examDa u => some u
  | .examSa u => some u
  | .examCa u => some u
  | .examDs u => some u
  | .examCp u => some u
  | .rfRead _ _ _ => none
  | .rfWrite _ _ _ _ => none

/-- The operation is directed at unit `u` alone: by its operand, by its RegisterFile, or by the route of its address. -/
def Instr.directedAt (c : Config) (u : Nat) (i : Instr) : Bool :=
  match i.unitOperand, i with
  | some v, _ => v.toNat == u
  | none, .rfRead rf _ _ => rf.toNat == u
  | none, .rfWrite rf _ _ _ => rf.toNat == u
  | none, .br a => c.routeOf (addrUnit a) == .drum u
  | none, .bw a _ => c.routeOf (addrUnit a) == .drum u
  | none, _ => false

/-- The operation is a bus, unit-level or RegisterFile write of line X of unit u (R17). -/
def Instr.writes (c : Config) (u : Nat) (X : Line) (i : Instr) : Bool :=
  match i with
  | .vwDa v _ _ => v.toNat == u && X == .da
  | .vwSa v _ _ => v.toNat == u && X == .sa
  | .vwCa v _ _ => v.toNat == u && X == .ca
  | .vwDs v _ _ => v.toNat == u && X == .ds
  | .rfWrite rf b l _ => rf.toNat == u && c.lineAt ⟨b, l⟩ == some X
  | .bw a _ => c.addresses a u X
  | _ => false

/-- The operation is a unit-level, RegisterFile or bus read of line X of unit u (R77). -/
def Instr.readsLine (c : Config) (u : Nat) (X : Line) (i : Instr) : Bool :=
  match i with
  | .vrDa v _ => v.toNat == u && X == .da
  | .vrSa v _ => v.toNat == u && X == .sa
  | .vrCa v _ => v.toNat == u && X == .ca
  | .vrDs v _ => v.toNat == u && X == .ds
  | .vrCp v _ => v.toNat == u && X == .cp
  | .rfRead rf b l => rf.toNat == u && c.lineAt ⟨b, l⟩ == some X
  | .br a => c.addresses a u X
  | _ => false

/-- The datum a bus, unit-level or RegisterFile write carries (R52). -/
def Instr.datum (i : Instr) : Option Data :=
  match i with
  | .bw _ d => some d
  | .vwDa _ _ d => some d
  | .vwSa _ _ d => some d
  | .vwCa _ _ d => some d
  | .vwDs _ _ d => some d
  | .vwCp _ _ d => some d
  | .vwNone _ _ d => some d
  | .rfWrite _ _ _ d => some d
  | _ => none

/-- The operation is a host deposit into line X of unit u (R68). -/
def Instr.deposits (u : Nat) (X : Line) (i : Instr) : Bool :=
  match i with
  | .depDa v _ => v.toNat == u && X == .da
  | .depSa v _ => v.toNat == u && X == .sa
  | .depCa v _ => v.toNat == u && X == .ca
  | .depDs v _ => v.toNat == u && X == .ds
  | _ => false

/-- The operation advances unit u (R90, R91). -/
def Instr.advances (u : Nat) (i : Instr) : Bool :=
  match i with
  | .adv v => v.toNat == u
  | .tick => true
  | _ => false

/-- The operation only reads: a unit-level read, a host examine or a RegisterFile read (R37). -/
def Instr.reads (i : Instr) : Bool :=
  match i with
  | .vrDa _ _ | .vrSa _ _ | .vrCa _ _ | .vrDs _ _ | .vrCp _ _ | .vrNone _ _ => true
  | .examDa _ | .examSa _ | .examCa _ | .examDs _ | .examCp _ => true
  | .rfRead _ _ _ => true
  | _ => false

end Sys2Proof
end

