-- ==== Sys2Proof/Certificates/Slice0/Obligations.lean ====
section
/-! DEFINITION. The statements of this model, each from the numbered rules of spec/. In every one the configuration is
the state's own, so a statement holds for every well-formed configuration, and `Live` is the premise R30 asks of a claim
(`refused = none`) with the invariant of a run. The statements on refusals, on completion and on the mark and the
invariant themselves hold in marked states too, and say nothing of what a transfer does. -/

open Sys2Proof Sys2Proof.Machine

/-! ### Encodings -/

/-- Every operation, with every operand value, survives encoding and decoding (R52; the record layout is the model's
choice, log 3). -/
def Obligations.EncodeThenDecodeGivesTheOperation : Prop :=
  ∀ i : Instr, decode (encode i) = .ok i

/-- Every word has one meaning: a word that decodes is the encoding of what it decodes to (R52, R53; the record layout
is the model's choice, log 3). -/
def Obligations.DecodedWordIsTheEncoding : Prop :=
  ∀ (w : OpWord) (i : Instr), decode w = .ok i → encode i = w

/-- A word whose OPSEL, bits 7:0, is not one of the 30 selectors of R52 is refused, by the decoder and by a step (R53,
decision D35). -/
def Obligations.SelectorOutsideTheTableIsRefused : Prop :=
  ∀ w : OpWord,
    (w.extractLsb' 0 8).toNat ∉
      [0x10, 0x11, 0x20, 0x21, 0x22, 0x23, 0x24, 0x2F, 0x30, 0x31, 0x32, 0x33, 0x34, 0x3F, 0x40, 0x41, 0x50, 0x51, 0x52,
       0x60, 0x61, 0x62, 0x63, 0x70, 0x71, 0x72, 0x73, 0x74, 0x80, 0x81] →
    decode w = .error .noSuchSelector
      ∧ ∀ (s : State) (rest : List OpWord), s.cfg.wf = true → s.issued = w :: rest →
          step s = .refused (.undecodable .noSuchSelector)

/-- Words written out from R52's selectors decode to the operations they stand for, one of each family (the operand
places are the model's choice, log 3). -/
def Obligations.WrittenOutWordsDecode : Prop :=
  decode 0x00000000_00000000_0F800000_00000010#128 = .ok (.br 0x0F800000#32)
    ∧ decode 0x00000000_40004503_01800000_00000011#128 = .ok (.bw 0x01800000#32 0x40004503#64)
    ∧ decode 0x00000000_00000000_00000000_08030123#128 = .ok (.vrDs 1 (.pair 0 3))
    ∧ decode 0xFFFFFFFF_A5A5A5A5_00000000_00000030#128 = .ok (.vwDa 0 .named 0xFFFFFFFFA5A5A5A5#64)
    ∧ decode 0x00000000_00000000_00000000_00000141#128 = .ok (.adv 1)
    ∧ decode 0x00000000_00000000_00000000_00000050#128 = .ok .reset
    ∧ decode 0x00000000_00A5A5A5_00000000_00000063#128 = .ok (.depDs 0 0xA5A5A5#64)
    ∧ decode 0x00000000_00000000_00000000_01000180#128 = .ok (.rfRead 1 1 0)

/-! ### A step -/

/-- A step under a well-formed configuration takes the first issued record and runs the operation it decodes to, on the
state with that record taken and nothing else changed (R36, R40; the list of issued records is the model's, log 2). -/
def Obligations.StepRunsTheDecodedOperation : Prop :=
  ∀ (s : State) (w : OpWord) (rest : List OpWord) (i : Instr),
    s.cfg.wf = true → s.issued = w :: rest → decode w = .ok i → step s = exec i { s with issued := rest }

/-- A configuration that fails a check of R67 is refused whatever is issued (decision D34), and with nothing issued a
step under a well-formed configuration changes nothing (R6; the model's choice, log 2). -/
def Obligations.StepRefusesAnIllFormedConfigurationAndIdles : Prop :=
  ∀ s : State,
    (s.cfg.wf = false → step s = .refused .illFormedConfiguration)
      ∧ (s.cfg.wf = true → s.issued = [] → step s = .next s)

/-- Every operation of the closed set completes, and leaves the configuration (R7), the operations still to be taken
(log 2) and the number of units as they were (R97, decision D35). -/
def Obligations.EveryOperationCompletes : Prop :=
  ∀ (i : Instr) (s : State), i.wf s.cfg = true →
    ∃ t, exec i s = .next t ∧ t.cfg = s.cfg ∧ t.issued = s.issued ∧ t.units.length = s.units.length

/-- An operand `u >= N_DRUMS` is refused, for each operation that has one (R53, decision D35). -/
def Obligations.UnitAtOrAboveNDrumsIsRefused : Prop :=
  ∀ (i : Instr) (s : State) (u : UnitNo),
    i.unitOperand = some u → s.cfg.nDrums ≤ u.toNat → exec i s = .refused .noSuchUnit

/-- An operation outside the closed set is refused: by its unit, by a (block, line) that names another line than its
selector (the model's reading of R52, log 5), or by its RegisterFile (log 11). Nothing else is refused, and no refusal has
another reason. -/
def Obligations.RefusedExactlyOutsideTheClosedSet : Prop :=
  ∀ (i : Instr) (s : State),
    (i.wf s.cfg = false ↔ ∃ r, exec i s = .refused r)
      ∧ ∀ r, exec i s = .refused r → r = .noSuchUnit ∨ r = .selectorMismatch ∨ r = .noSuchRegisterFile

/-! ### The RegisterFile's write kinds, for every line descriptor -/

/-- MERGE (R59): `new = (old & ~M) | (x & M)`. The bits in M take the written bits and the others keep the old ones; M = 0
changes nothing; M = all ones of the width stores; writing back a read changes nothing on a line without a transform, and
changes the line where a transform shows a writable bit otherwise than it is stored. -/
def Obligations.MergeWriteTakesTheMaskedBits : Prop :=
  ∀ (D : LineDesc) (old d : Data), D.kind = .merge → D.widthOk = true →
    D.newValue old d = (old &&& ~~~D.writeMask) ||| (D.cut d &&& D.writeMask)
      ∧ (∀ k, k < 64 → (D.newValue old d).getLsbD k = if D.writeMask.getLsbD k then d.getLsbD k else old.getLsbD k)
      ∧ (D.writeMask = 0 → D.newValue old d = old)
      ∧ (D.writeMask = D.cut (BitVec.allOnes 64) → D.cut old = old → D.newValue old d = D.cut d)
      ∧ (D.readTransform = none → D.newValue old (D.readValue old) = old)
      ∧ (∀ k, k < 64 → D.writeMask.getLsbD k = true → (D.readValue old).getLsbD k ≠ old.getLsbD k →
          D.newValue old (D.readValue old) ≠ old)

/-- W1C (R60): `new = old & ~(x & M)`. A written 1 within M clears its bit and every other bit keeps its value, so no
bit is ever set; writing 0 changes nothing, all ones clears all of M, and writing back a read clears exactly the
readable 1 bits within M. -/
def Obligations.W1cWriteClearsTheWrittenOnes : Prop :=
  ∀ (D : LineDesc) (old d : Data), D.kind = .w1c → D.widthOk = true →
    D.newValue old d = old &&& ~~~(D.cut d &&& D.writeMask)
      ∧ (∀ k, k < 64 → (D.newValue old d).getLsbD k = (old.getLsbD k && !(D.writeMask.getLsbD k && d.getLsbD k)))
      ∧ D.newValue old 0 = old
      ∧ D.newValue old (BitVec.allOnes 64) = old &&& ~~~D.writeMask
      ∧ D.newValue old (D.readValue old) = old &&& ~~~(D.readValue old &&& D.writeMask)

/-- REPACK(F) (R61, decision D11): `new = (x & M) | F`. No old bit survives, two data equal on M give one value, and the
fixed bits are 1. -/
def Obligations.RepackWriteReplacesTheValue : Prop :=
  ∀ (D : LineDesc) (F old old' d d' : Data), D.kind = .repack F → D.widthOk = true →
    D.newValue old d = (D.cut d &&& D.writeMask) ||| F
      ∧ (d &&& D.writeMask = d' &&& D.writeMask → D.newValue old d = D.newValue old' d')
      ∧ D.newValue old d &&& F = F

/-- Width (R64): the datum is cut to the line's width before the kind's formula applies, and no bit at or above the
width reaches the stored value. -/
def Obligations.WriteKeepsWithinTheWidth : Prop :=
  ∀ (D : LineDesc) (old d : Data), D.widthOk = true → D.fixedOk = true → D.cut old = old →
    D.newValue old d = D.newValue old (D.cut d)
      ∧ D.cut (D.newValue old d) = D.newValue old d
      ∧ ∀ k, D.width ≤ k → (D.newValue old d).getLsbD k = false

/-! ### Unit-level reads -/

/-- VR.DA (R78), by the unit-level operation and by a bus read at any of the line's real addresses: the stored value
with bit 31 forced to 1, zero-extended; nothing else changes. -/
def Obligations.VrDaReadsWithTheFixedBit : Prop :=
  ∀ (s : State) (u : UnitNo) (r : LineOperand) (a : RealAddr), s.Live → u.toNat < s.cfg.nDrums →
    let t : State := { s with result := some (((s.unit u.toNat).da ||| 0x80000000#32).setWidth 64) }
    (r.names s.cfg .da = true → exec (.vrDa u r) s = .next t)
      ∧ (s.cfg.addresses a u.toNat .da = true → exec (.br a) s = .next t)
      ∧ (encode (.vrDa u r)).extractLsb' 0 8 = 0x20#8

/-- VR.SA (R81): the stored value zero-extended; nothing else changes. -/
def Obligations.VrSaReadsTheStoreAddress : Prop :=
  ∀ (s : State) (u : UnitNo) (r : LineOperand) (a : RealAddr), s.Live → u.toNat < s.cfg.nDrums →
    let t : State := { s with result := some ((s.unit u.toNat).sa.setWidth 64) }
    (r.names s.cfg .sa = true → exec (.vrSa u r) s = .next t)
      ∧ (s.cfg.addresses a u.toNat .sa = true → exec (.br a) s = .next t)
      ∧ (encode (.vrSa u r)).extractLsb' 0 8 = 0x21#8

/-- VR.CA (R83): the stored value zero-extended; nothing else changes. -/
def Obligations.VrCaReadsTheCompleteAddress : Prop :=
  ∀ (s : State) (u : UnitNo) (r : LineOperand) (a : RealAddr), s.Live → u.toNat < s.cfg.nDrums →
    let t : State := { s with result := some ((s.unit u.toNat).ca.setWidth 64) }
    (r.names s.cfg .ca = true → exec (.vrCa u r) s = .next t)
      ∧ (s.cfg.addresses a u.toNat .ca = true → exec (.br a) s = .next t)
      ∧ (encode (.vrCa u r)).extractLsb' 0 8 = 0x22#8

/-- VR.DS (R85): the stored value with bits 3:0 read as 0; the sticky flags and everything else stay. -/
def Obligations.VrDsReadsWithoutTheUnitField : Prop :=
  ∀ (s : State) (u : UnitNo) (r : LineOperand) (a : RealAddr), s.Live → u.toNat < s.cfg.nDrums →
    let t : State := { s with result := some (((s.unit u.toNat).ds &&& 0xFFFFFFF0#32).setWidth 64) }
    (r.names s.cfg .ds = true → exec (.vrDs u r) s = .next t)
      ∧ (s.cfg.addresses a u.toNat .ds = true → exec (.br a) s = .next t)
      ∧ (encode (.vrDs u r)).extractLsb' 0 8 = 0x23#8

/-- VR.CP, the bus read of CP and EXAM.CP (R87, R69, R24, decision D18): under `packed_all` bits 6v+5:6v hold unit v's
position, for every unit, and the fields of indices at or above N_DRUMS and bits 63:24 read 0; under `own_field` only
the reading unit's field is there. Nothing but the returned datum changes. -/
def Obligations.CurrentPositionsReadThePositions : Prop :=
  ∀ (s : State) (u : UnitNo) (r : LineOperand) (a : RealAddr), s.Live → u.toNat < s.cfg.nDrums →
    ∃ cp : Data,
      (r.names s.cfg .cp = true → exec (.vrCp u r) s = .next { s with result := some cp })
        ∧ (s.cfg.addresses a u.toNat .cp = true → exec (.br a) s = .next { s with result := some cp })
        ∧ exec (.examCp u) s = .next { s with result := some cp }
        ∧ (s.cfg.curposView = .packedAll →
            (∀ v, v < s.cfg.nDrums → (cp.extractLsb' (6 * v) 6).toNat = (s.unit v).pos)
              ∧ ∀ k, 6 * s.cfg.nDrums ≤ k → cp.getLsbD k = false)
        ∧ (s.cfg.curposView = .ownField → cp.toNat = (s.unit u.toNat).pos * 2 ^ (6 * u.toNat))

/-- VR.NONE, VW.NONE, and the bus at an offset that resolves to no line (R89, R66, R74, decision D7): the read returns
0, the write is discarded, and no record is made. The form that gives no pair acts alike (the model's choice, log 4). -/
def Obligations.UnmappedLinesAreInert : Prop :=
  ∀ (s : State) (u : UnitNo) (r : LineOperand) (a : RealAddr) (d : Data), s.Live → u.toNat < s.cfg.nDrums →
    (r = .named ∨ (∃ b l, r = .pair b l ∧ s.cfg.lineAt ⟨b, l⟩ = none) →
        exec (.vrNone u r) s = .next { s with result := some 0 }
          ∧ exec (.vwNone u r d) s = .next { s with result := none })
      ∧ (s.cfg.routeOf (a.extractLsb' 24 4) = .drum u.toNat → (∀ X, s.cfg.addresses a u.toNat X = false) →
        exec (.br a) s = .next { s with result := some 0 } ∧ exec (.bw a d) s = .next { s with result := none })

/-! ### Unit-level writes -/

/-- VW.DA and the bus write of DA (R79, R80, R47; decisions D10, D11, D13, D14, D39): DA takes
`(d[31:0] & DISC_ADDRESS_MASK) | 0x80000000`. The request is illegal exactly if the unit is not attached, BLOCK >=
BPB[u], SIZE = 0 or SIZE > BPB[u]: then both flags are set and there is no request. Otherwise both are cleared and the
request is Pending with the stored fields. Nothing else changes. -/
def Obligations.VwDaStoresAndValidates : Prop :=
  ∀ (s : State) (u : UnitNo) (r : LineOperand) (a : RealAddr) (d : Data), s.Live → u.toNat < s.cfg.nDrums →
    let U := s.unit u.toNat
    let new : BitVec 32 := (d.setWidth 32 &&& s.cfg.discAddressMask) ||| 0x80000000#32
    let block : BitVec 6 := new.extractLsb' 8 6
    let size : BitVec 8 := new.extractLsb' 0 8
    let F : BitVec 32 := (1#32 <<< s.cfg.decodeBit) ||| (1#32 <<< s.cfg.illegalRequestBit)
    let illegal : Prop := U.attached = false ∨ s.cfg.bpbOf u.toNat ≤ block.toNat ∨ size = 0 ∨ s.cfg.bpbOf u.toNat < size.toNat
    let p : Request := ⟨new.getLsbD 30, new.extractLsb' 20 10, new.extractLsb' 14 6, block, size⟩
    ∀ i : Instr, (i = .vwDa u r d ∧ r.names s.cfg .da = true) ∨ (i = .bw a d ∧ s.cfg.addresses a u.toNat .da = true) →
      (illegal → exec i s = .next { s with
          units := s.units.set u.toNat { U with da := new, ds := U.ds ||| F, req := .noRequest }, result := none })
        ∧ (¬ illegal → exec i s = .next { s with
          units := s.units.set u.toNat { U with da := new, ds := U.ds &&& ~~~F, req := .pending p }, result := none })

/-- VW.SA, VW.CA and the bus writes of SA and CA (R82, R84, R21, R22; decision D19): the line takes d[27:0], and DS,
the request and everything else stay. -/
def Obligations.VwSaAndVwCaStoreTwentyEightBits : Prop :=
  ∀ (s : State) (u : UnitNo) (r : LineOperand) (a : RealAddr) (d : Data), s.Live → u.toNat < s.cfg.nDrums →
    let U := s.unit u.toNat
    let tSa : State := { s with units := s.units.set u.toNat { U with sa := d.extractLsb' 0 28 }, result := none }
    let tCa : State := { s with units := s.units.set u.toNat { U with ca := d.extractLsb' 0 28 }, result := none }
    (r.names s.cfg .sa = true → exec (.vwSa u r d) s = .next tSa)
      ∧ (s.cfg.addresses a u.toNat .sa = true → exec (.bw a d) s = .next tSa)
      ∧ (r.names s.cfg .ca = true → exec (.vwCa u r d) s = .next tCa)
      ∧ (s.cfg.addresses a u.toNat .ca = true → exec (.bw a d) s = .next tCa)

/-- VW.DS and the bus write of DS (R86): `DS & ~(d[31:0] & 0x7FFFDBCF)`. The two flags clear independently, bits 31, 13,
10, 5 and 4 stay, and the request and everything else stay. -/
def Obligations.VwDsClearsTheWrittenOnes : Prop :=
  ∀ (s : State) (u : UnitNo) (r : LineOperand) (a : RealAddr) (d : Data), s.Live → u.toNat < s.cfg.nDrums →
    let U := s.unit u.toNat
    let t : State := { s with
      units := s.units.set u.toNat { U with ds := U.ds &&& ~~~(d.setWidth 32 &&& 0x7FFFDBCF#32) }, result := none }
    (r.names s.cfg .ds = true → exec (.vwDs u r d) s = .next t)
      ∧ (s.cfg.addresses a u.toNat .ds = true → exec (.bw a d) s = .next t)
      ∧ (encode (.vwDs u r d)).extractLsb' 0 8 = 0x33#8

/-- VW.CP and the bus write of CP (R88): nothing changes; the write returns nothing. -/
def Obligations.VwCpChangesNothing : Prop :=
  ∀ (s : State) (u : UnitNo) (r : LineOperand) (a : RealAddr) (d : Data), s.Live → u.toNat < s.cfg.nDrums →
    (r.names s.cfg .cp = true → exec (.vwCp u r d) s = .next { s with result := none })
      ∧ (s.cfg.addresses a u.toNat .cp = true → exec (.bw a d) s = .next { s with result := none })
      ∧ (encode (.vwCp u r d)).extractLsb' 0 8 = 0x34#8

/-! ### The generic RegisterFile operations -/

/-- RF.READ (R57, R66, decisions D23, D24): an unmapped pair returns 0, DA its value with bit 31 forced, SA and CA their
values, DS its value without bits 3:0, and CP what VR.CP returns. Nothing but the returned datum changes. -/
def Obligations.RfReadReturnsTheLine : Prop :=
  ∀ (s : State) (u : UnitNo) (rf : BitVec 8) (b : BitVec 3) (l : BitVec 8), s.Live → rf.toNat < s.cfg.nDrums →
    u.toNat = rf.toNat →
    match s.cfg.lineAt ⟨b, l⟩ with
    | none => exec (.rfRead rf b l) s = .next { s with result := some 0 }
    | some .da => exec (.rfRead rf b l) s = .next { s with result := some (((s.unit u.toNat).da ||| 0x80000000#32).setWidth 64) }
    | some .sa => exec (.rfRead rf b l) s = .next { s with result := some ((s.unit u.toNat).sa.setWidth 64) }
    | some .ca => exec (.rfRead rf b l) s = .next { s with result := some ((s.unit u.toNat).ca.setWidth 64) }
    | some .ds => exec (.rfRead rf b l) s = .next { s with result := some (((s.unit u.toNat).ds &&& 0xFFFFFFF0#32).setWidth 64) }
    | some .cp => exec (.rfRead rf b l) s = exec (.vrCp u .named) s

/-- RF.WRITE (R58, R65, R66, decision D22): on an unmapped pair nothing changes; on a mapped one, for unit `rf`'s line X,
on_write runs on the old state (only DA has one) and then the line takes the value of its kind. -/
def Obligations.RfWriteAppliesTheKindOfTheLine : Prop :=
  ∀ (s : State) (rf : BitVec 8) (b : BitVec 3) (l : BitVec 8) (d : Data), s.Live → rf.toNat < s.cfg.nDrums →
    let u := rf.toNat
    let U := s.unit u
    let new : BitVec 32 := (d.setWidth 32 &&& s.cfg.discAddressMask) ||| 0x80000000#32
    let illegal := requestIllegal U.attached (s.cfg.bpbOf u) (new.extractLsb' 8 6) (new.extractLsb' 0 8)
    exec (.rfWrite rf b l d) s = .next { s with
      units := match s.cfg.lineAt ⟨b, l⟩ with
        | none => s.units
        | some .da => s.units.set u { U with
            da := new,
            ds := s.cfg.flagsAfter U.ds illegal,
            req := if illegal then .noRequest else .pending (requestOf new) }
        | some .sa => s.units.set u { U with sa := d.extractLsb' 0 28 }
        | some .ca => s.units.set u { U with ca := d.extractLsb' 0 28 }
        | some .ds => s.units.set u { U with ds := U.ds &&& ~~~(d.setWidth 32 &&& 0x7FFFDBCF#32) }
        | some .cp => s.units
      result := none }

/-! ### Host access to backing values -/

/-- DEP.X (R68, decision D21): the raw value cut to the line's width, with no mask, no validation and no other change. -/
def Obligations.DepositStoresTheRawValue : Prop :=
  ∀ (s : State) (u : UnitNo) (v : Data), s.Live → u.toNat < s.cfg.nDrums →
    let U := s.unit u.toNat
    exec (.depDa u v) s = .next { s with units := s.units.set u.toNat { U with da := v.extractLsb' 0 32 }, result := none }
      ∧ exec (.depSa u v) s = .next { s with units := s.units.set u.toNat { U with sa := v.extractLsb' 0 28 }, result := none }
      ∧ exec (.depCa u v) s = .next { s with units := s.units.set u.toNat { U with ca := v.extractLsb' 0 28 }, result := none }
      ∧ exec (.depDs u v) s = .next { s with units := s.units.set u.toNat { U with ds := v.extractLsb' 0 32 }, result := none }

/-- EXAM.X (R69, decision D21): the raw stored value, with no read transform, and no change; EXAM.CP returns what VR.CP
returns. -/
def Obligations.ExamineReturnsTheRawValue : Prop :=
  ∀ (s : State) (u : UnitNo), s.Live → u.toNat < s.cfg.nDrums →
    let U := s.unit u.toNat
    exec (.examDa u) s = .next { s with result := some (U.da.setWidth 64) }
      ∧ exec (.examSa u) s = .next { s with result := some (U.sa.setWidth 64) }
      ∧ exec (.examCa u) s = .next { s with result := some (U.ca.setWidth 64) }
      ∧ exec (.examDs u) s = .next { s with result := some (U.ds.setWidth 64) }
      ∧ exec (.examCp u) s = exec (.vrCp u .named) s

/-- What a deposit stored, an examine returns, cut to the width of the line and whatever the line's masks and
transforms are (R68, R69, decision D21). -/
def Obligations.ExamineAfterDepositReturnsIt : Prop :=
  ∀ (s : State) (u : UnitNo) (v : Data), s.Live → u.toNat < s.cfg.nDrums →
    (∃ t, execAll [.depDa u v, .examDa u] s = .next t ∧ t.result = some (v &&& 0xFFFFFFFF#64))
      ∧ (∃ t, execAll [.depSa u v, .examSa u] s = .next t ∧ t.result = some (v &&& 0x0FFFFFFF#64))
      ∧ (∃ t, execAll [.depCa u v, .examCa u] s = .next t ∧ t.result = some (v &&& 0x0FFFFFFF#64))
      ∧ (∃ t, execAll [.depDs u v, .examDs u] s = .next t ∧ t.result = some (v &&& 0xFFFFFFFF#64))

/-! ### The Exchange -/

/-- BR (R70, R72, R74, R75, R76): with no handler, 0 and one diagnostic; at a drum unit, what the line the offset
resolves to reads, as RF.READ of the unit's RegisterFile reads it (`rf` is the unit's number: the model's reading, log 11),
or 0 with no diagnostic; at an external unit, a draw, whatever its value, with the draw counter going up by one (the
model's own, log 8). No unit, mark or external log changes, and bits 31:28 of a routed address take no part (the spec's
decision D2, log 15). -/
def Obligations.BusReadRoutes : Prop :=
  ∀ (s : State) (a : RealAddr), s.Live →
    let off : Offset := a.extractLsb' 0 24
    (encode (.br a)).extractLsb' 0 8 = 0x10#8
      ∧ match s.cfg.routeOf (a.extractLsb' 24 4) with
        | .unrouted => exec (.br a) s = .next { s with diag := s.diag ++ [⟨.read, a, none⟩], result := some 0 }
        | .drum u =>
          (∀ a' : RealAddr, a'.extractLsb' 0 28 = a.extractLsb' 0 28 → exec (.br a') s = exec (.br a) s)
            ∧ match s.cfg.resolveOffset off with
              | none => exec (.br a) s = .next { s with result := some 0 }
              | some p => exec (.br a) s = exec (.rfRead (BitVec.ofNat 8 u) p.block p.line) s
        | .external e =>
          (∀ a' : RealAddr, a'.extractLsb' 0 28 = a.extractLsb' 0 28 → exec (.br a') s = exec (.br a) s)
            ∧ exec (.br a) s = .next { s with result := some (Config.extRead s.draws e off), draws := s.draws + 1 }

/-- BW (R70, R73, R74, R75, R76): with no handler, one diagnostic and nothing else; at a drum unit, the write of the line
the offset resolves to, as RF.WRITE of the unit's RegisterFile makes it (`rf` is the unit's number: the model's reading,
log 11), or nothing and no diagnostic; at an external unit, one record of the write and no other change. Bits 31:28 of a
routed address take no part (the spec's decision D2, log 15). -/
def Obligations.BusWriteRoutes : Prop :=
  ∀ (s : State) (a : RealAddr) (d : Data), s.Live →
    let off : Offset := a.extractLsb' 0 24
    (encode (.bw a d)).extractLsb' 0 8 = 0x11#8
      ∧ match s.cfg.routeOf (a.extractLsb' 24 4) with
        | .unrouted => exec (.bw a d) s = .next { s with diag := s.diag ++ [⟨.write, a, some d⟩], result := none }
        | .drum u =>
          (∀ a' : RealAddr, a'.extractLsb' 0 28 = a.extractLsb' 0 28 → exec (.bw a' d) s = exec (.bw a d) s)
            ∧ match s.cfg.resolveOffset off with
              | none => exec (.bw a d) s = .next { s with result := none }
              | some p => exec (.bw a d) s = exec (.rfWrite (BitVec.ofNat 8 u) p.block p.line d) s
        | .external e =>
          (∀ a' : RealAddr, a'.extractLsb' 0 28 = a.extractLsb' 0 28 → exec (.bw a' d) s = exec (.bw a d) s)
            ∧ exec (.bw a d) s = .next { s with extLog := s.extLog ++ [⟨e, off, d⟩], result := none }

/-- The diagnostic log grows by one record at each bus access with no handler and by nothing else, and the external log
by one record at each bus write to an external unit and by nothing else (R29, R31, R76, decisions D30, D37). -/
def Obligations.LogsGrowOnlyOnTheBus : Prop :=
  ∀ (i : Instr) (s t : State), s.refused = none → exec i s = .next t →
    ((t.diag = s.diag ∧ ∀ a, (i = .br a ∨ ∃ d, i = .bw a d) → s.cfg.routeOf (a.extractLsb' 24 4) ≠ .unrouted)
        ∨ (∃ a, i = .br a ∧ s.cfg.routeOf (a.extractLsb' 24 4) = .unrouted ∧ t.diag = s.diag ++ [⟨.read, a, none⟩])
        ∨ ∃ a d, i = .bw a d ∧ s.cfg.routeOf (a.extractLsb' 24 4) = .unrouted ∧ t.diag = s.diag ++ [⟨.write, a, some d⟩])
      ∧ ((t.extLog = s.extLog ∧ ∀ a d e, i = .bw a d → s.cfg.routeOf (a.extractLsb' 24 4) ≠ .external e)
        ∨ ∃ a d e, i = .bw a d ∧ s.cfg.routeOf (a.extractLsb' 24 4) = .external e
            ∧ t.extLog = s.extLog ++ [⟨e, a.extractLsb' 0 24, d⟩])

/-! ### Rotation and the start of a transfer -/

/-- ADV (R90, R94's baseline, R100; decisions D15, D16): the position becomes (pos + 1) mod BPB[u]; if a Pending
request's block is the new position, the request becomes InTransfer and the refusal mark is set; nothing else changes. -/
def Obligations.AdvMovesOneBlockAndStartsOnArrival : Prop :=
  ∀ (s : State) (u : UnitNo), s.Live → u.toNat < s.cfg.nDrums →
    let U := s.unit u.toNat
    let pos' := (U.pos + 1) % s.cfg.bpbOf u.toNat
    (∀ p, U.req = .pending p → p.block.toNat = pos' →
        exec (.adv u) s = .next { s with
          units := s.units.set u.toNat { U with pos := pos', req := .inTransfer p },
          refused := some .unmodelledTransfer, result := none })
      ∧ ((∀ p, U.req = .pending p → p.block.toNat ≠ pos') →
        exec (.adv u) s = .next { s with units := s.units.set u.toNat { U with pos := pos' }, result := none })

/-- TICK advances every unit once, in any order: it is ADV of each unit, whatever order they are taken in (R91, R92,
R100; decision D28). -/
def Obligations.TickIsAdvOfEveryUnitInAnyOrder : Prop :=
  ∀ (s : State) (order : List UnitNo), s.Live → (order.map (·.toNat)).Perm (List.range s.cfg.nDrums) →
    ∃ t, exec .tick s = .next t ∧ execAll (order.map .adv) s = .next t

/-- Independence of units (R92): ADV of u changes only u's position and request and the refusal mark, leaves every other
unit as it was, gives unit u a result that depends on U[u] alone, and commutes with ADV of v. -/
def Obligations.AdvancesOfDistinctUnitsAreIndependent : Prop :=
  ∀ (s s' : State) (u v : UnitNo), s.Live → s'.Live → u.toNat < s.cfg.nDrums → v.toNat < s.cfg.nDrums → u ≠ v →
    s'.cfg = s.cfg → s'.unit u.toNat = s.unit u.toNat →
    ∃ t t', exec (.adv u) s = .next t ∧ exec (.adv u) s' = .next t'
      ∧ t = { s with
          units := s.units.set u.toNat { s.unit u.toNat with pos := (t.unit u.toNat).pos, req := (t.unit u.toNat).req },
          refused := t.refused, result := none }
      ∧ t.unit v.toNat = s.unit v.toNat
      ∧ t'.unit u.toNat = t.unit u.toNat
      ∧ ∃ w, execAll [.adv u, .adv v] s = .next w ∧ execAll [.adv v, .adv u] s = .next w

/-- Wraparound (R93): k advances of unit u from position p leave it at (p + k) mod BPB[u], and BPB[u] advances at p. -/
def Obligations.AdvancesWrapAround : Prop :=
  ∀ (s : State) (u : UnitNo) (k : Nat), s.Live → u.toNat < s.cfg.nDrums →
    (∃ t, execAll (List.replicate k (.adv u)) s = .next t
        ∧ (t.unit u.toNat).pos = ((s.unit u.toNat).pos + k) % s.cfg.bpbOf u.toNat)
      ∧ ∃ t, execAll (List.replicate (s.cfg.bpbOf u.toNat) (.adv u)) s = .next t
        ∧ (t.unit u.toNat).pos = (s.unit u.toNat).pos

/-- The rotational wait under every interleaving (R113, R115; decisions D15, D28): a request pending with start block b
at position q starts at the k-th advance of its unit, k = ((b - q - 1) mod BPB[u]) + 1, however many other operations
fall between, provided none of them writes DA of the unit or is RESET. Short of k advances it is pending, unless another
unit's start has set the refusal mark; from k advances on the mark is set; and the k-th advance, from a state without the
mark, makes the request InTransfer. -/
def Obligations.PendingRequestStartsAfterTheRotationalWait : Prop :=
  ∀ (ops : List Instr) (s t : State) (u : UnitNo) (p : Request) (k : Nat), s.Live → u.toNat < s.cfg.nDrums →
    (s.unit u.toNat).req = .pending p →
    (∀ i ∈ ops, i ≠ .reset ∧ i.writes s.cfg u.toNat .da = false) →
    execAll ops s = .next t →
    (k : Int) = ((p.block.toNat : Int) - (s.unit u.toNat).pos - 1) % (s.cfg.bpbOf u.toNat : Int) + 1 →
    let n := ops.countP (fun i => i.advances u.toNat)
    1 ≤ k ∧ k ≤ s.cfg.bpbOf u.toNat
      ∧ (n < k → t.refused = none → (t.unit u.toNat).req = .pending p)
      ∧ (k ≤ n → t.refused = some .unmodelledTransfer)
      ∧ ∀ (i : Instr) (w : State), t.refused = none → n + 1 = k → i.advances u.toNat = true → exec i t = .next w →
          (w.unit u.toNat).req = .inTransfer p ∧ w.refused = some .unmodelledTransfer

/-- The refusal mark (R30, R94; decision D16): once set it stays set, whatever the operation; and only an ADV or a TICK
that brings a Pending request's unit to its block sets it. -/
def Obligations.RefusalMarkIsStickyAndSetOnlyByAStart : Prop :=
  ∀ (i : Instr) (s t : State), exec i s = .next t →
    (s.refused = some .unmodelledTransfer → t.refused = some .unmodelledTransfer)
      ∧ (s.refused = none → t.refused = some .unmodelledTransfer →
          ∃ u p, i.advances u = true ∧ (s.unit u).req = .pending p
            ∧ p.block.toNat = ((s.unit u).pos + 1) % s.cfg.bpbOf u)

/-! ### Reset, attach, detach -/

/-- RESET (R110, decision D20): every line 0, every position 0, no request, `attached`, the logs and the mark as they
were. -/
def Obligations.ResetZeroesEveryUnit : Prop :=
  ∀ s : State, s.Live →
    ∃ t, exec .reset s = .next t
      ∧ t = { s with units := t.units, result := none }
      ∧ t.units.length = s.units.length
      ∧ ∀ u, u < s.cfg.nDrums → t.unit u =
          { da := 0, sa := 0, ca := 0, ds := 0, pos := 0, attached := (s.unit u).attached, req := .noRequest }

/-- ATTACH and DETACH (R95, R96, decision D17): `attached` becomes true, or false, and nothing else changes: no line, no
position, no request. -/
def Obligations.AttachAndDetachSetOnlyTheFlag : Prop :=
  ∀ (s : State) (u : UnitNo), s.Live → u.toNat < s.cfg.nDrums →
    let U := s.unit u.toNat
    exec (.attach u) s = .next { s with units := s.units.set u.toNat { U with attached := true }, result := none }
      ∧ exec (.detach u) s = .next { s with units := s.units.set u.toNat { U with attached := false }, result := none }

/-- Creation (R109, decision D20): under every configuration each unit has every line 0, position 0, no medium and no
request, the logs are empty and there is no mark. The machine after reset is this under RC (the model's choice, log 1),
with no operation issued (log 2). -/
def Obligations.CreationValues : Prop :=
  (∀ c : Config,
    let s := State.created c
    s.cfg = c ∧ s.units.length = c.nDrums ∧ s.diag = [] ∧ s.extLog = [] ∧ s.refused = none
      ∧ ∀ u, u < c.nDrums → s.unit u =
          { da := 0, sa := 0, ca := 0, ds := 0, pos := 0, attached := false, req := .noRequest })
    ∧ State.reset = State.created Config.rc ∧ State.reset.issued = []

/-! ### Rules of the whole machine -/

/-- The lines of a unit change only by a write of that line, a deposit into it, RESET, and for DS a write of DA (R17,
R19, R22, R23). -/
def Obligations.LinesChangeOnlyByTheirWriters : Prop :=
  ∀ (i : Instr) (s t : State) (u : Nat) (X : Line), s.refused = none → exec i s = .next t →
    (t.unit u).line X ≠ (s.unit u).line X →
    i.writes s.cfg u X = true ∨ i.deposits u X = true ∨ i = .reset ∨ (X = .ds ∧ i.writes s.cfg u .da = true)

/-- Only ADV of the unit, TICK and RESET change a position (R25, R104). -/
def Obligations.PositionChangesOnlyByAdvanceAndReset : Prop :=
  ∀ (i : Instr) (s t : State) (u : Nat), s.refused = none → exec i s = .next t →
    (t.unit u).pos ≠ (s.unit u).pos → i.advances u = true ∨ i = .reset

/-- Only ATTACH and DETACH of the unit change its attach flag, and RESET leaves it (R26). -/
def Obligations.AttachedChangesOnlyByTheHost : Prop :=
  ∀ (i : Instr) (s t : State) (u : Nat), s.refused = none → exec i s = .next t →
    (t.unit u).attached ≠ (s.unit u).attached →
    ∃ v : UnitNo, v.toNat = u ∧ (i = .attach v ∧ (t.unit u).attached = true ∨ i = .detach v ∧ (t.unit u).attached = false)

/-- A request changes only by a write of DA of its unit, by an advance of it and by RESET (R27, R79, R90, R110;
decisions D14, D17): no DS write, attach, detach or deposit cancels one. -/
def Obligations.RequestChangesOnlyByDaWriteAdvanceAndReset : Prop :=
  ∀ (i : Instr) (s t : State) (u : Nat), s.refused = none → exec i s = .next t →
    (t.unit u).req ≠ (s.unit u).req → i.writes s.cfg u .da = true ∨ i.advances u = true ∨ i = .reset

/-- No register is shared between units (R16, R106): an operation directed at unit u leaves every other unit as it
was. -/
def Obligations.OperationOnOneUnitLeavesTheOthers : Prop :=
  ∀ (i : Instr) (s t : State) (u v : Nat), s.refused = none → exec i s = .next t → i.directedAt s.cfg u = true → v ≠ u →
    t.unit v = s.unit v

/-- A read changes nothing but the datum it returns, and reading again returns the same datum (R37, R57; decision
D23): every unit-level read, examine and RegisterFile read, and every bus read of an address routed to a drum unit, whether
its offset resolves or not. -/
def Obligations.ReadsChangeNothingAndRepeat : Prop :=
  ∀ (i : Instr) (s : State), s.refused = none →
    (i.reads = true ∨ ∃ a v, i = .br a ∧ s.cfg.routeOf (a.extractLsb' 24 4) = .drum v) → i.wf s.cfg = true →
    ∃ v : Data, exec i s = .next { s with result := some v }
      ∧ exec i { s with result := some v } = .next { s with result := some v }

/-- A write of DA, SA, CA or DS has no latency (R112, R36): the very next read sees it, whichever form the write `w` and
the read `j` take: unit-level by name or by pair, RegisterFile (log 11), or bus. SA and CA read d[27:0] (R82, R84; decision
D19), DA the stored word (R79; decisions D10, D11), DS what its own write left (R86), and after a write of DA the flags
that its validation set or cleared (R80; decisions D13, D39). -/
def Obligations.ReadAfterWriteSeesTheWrite : Prop :=
  ∀ (s : State) (u : Nat) (w j : Instr) (d : Data), s.Live → u < s.cfg.nDrums →
    w.wf s.cfg = true → j.wf s.cfg = true → w.datum = some d →
    let U := s.unit u
    let new : BitVec 32 := (d.setWidth 32 &&& s.cfg.discAddressMask) ||| 0x80000000#32
    let illegal := requestIllegal U.attached (s.cfg.bpbOf u) (new.extractLsb' 8 6) (new.extractLsb' 0 8)
    (w.writes s.cfg u .sa = true → j.readsLine s.cfg u .sa = true →
        ∃ t, execAll [w, j] s = .next t ∧ t.result = some (d &&& 0x0FFFFFFF#64))
      ∧ (w.writes s.cfg u .ca = true → j.readsLine s.cfg u .ca = true →
        ∃ t, execAll [w, j] s = .next t ∧ t.result = some (d &&& 0x0FFFFFFF#64))
      ∧ (w.writes s.cfg u .da = true → j.readsLine s.cfg u .da = true →
        ∃ t, execAll [w, j] s = .next t ∧ t.result = some (new.setWidth 64))
      ∧ (w.writes s.cfg u .ds = true → j.readsLine s.cfg u .ds = true →
        ∃ t, execAll [w, j] s = .next t
          ∧ t.result = some ((U.ds &&& ~~~(d.setWidth 32 &&& 0x7FFFDBCF#32) &&& 0xFFFFFFF0#32).setWidth 64))
      ∧ (w.writes s.cfg u .da = true → j.readsLine s.cfg u .ds = true →
        ∃ t v, execAll [w, j] s = .next t ∧ t.result = some v
          ∧ v = (s.cfg.flagsAfter U.ds illegal &&& 0xFFFFFFF0#32).setWidth 64
          ∧ v.getLsbD s.cfg.decodeBit = illegal ∧ v.getLsbD s.cfg.illegalRequestBit = illegal)

/-! ### The invariant -/

/-- Every step keeps the invariant of a run: the configuration well-formed, one unit for each u < N_DRUMS, every position
below BPB[u] (R25), every held request legal (R80), and InTransfer only under the refusal mark (R94). -/
def Obligations.StepKeepsTheInvariant : Prop :=
  ∀ s t : State, s.Inv → step s = .next t → t.Inv

/-- The state at creation meets the invariant under every well-formed configuration, and so does the machine after
reset. -/
def Obligations.CreationMeetsTheInvariant : Prop :=
  (∀ c : Config, c.wf = true → (State.created c).Inv) ∧ State.reset.Inv
end

