-- ==== Sys2Proof/Laws/State.lean ====
section
/-! SUPPORT. One lemma per field per update of State and of a drum unit, and reading a unit after a unit is written. -/

namespace Sys2Proof.Machine

variable (s : State) (u v : Nat) (d : DrumUnit) (w : Data)

/-! ### setUnit -/

@[simp] theorem State.setUnit_cfg : (s.setUnit u d).cfg = s.cfg := rfl
@[simp] theorem State.setUnit_units : (s.setUnit u d).units = s.units.set u d := rfl
@[simp] theorem State.setUnit_diag : (s.setUnit u d).diag = s.diag := rfl
@[simp] theorem State.setUnit_refused : (s.setUnit u d).refused = s.refused := rfl
@[simp] theorem State.setUnit_extLog : (s.setUnit u d).extLog = s.extLog := rfl
@[simp] theorem State.setUnit_result : (s.setUnit u d).result = s.result := rfl
@[simp] theorem State.setUnit_issued : (s.setUnit u d).issued = s.issued := rfl
@[simp] theorem State.setUnit_draws : (s.setUnit u d).draws = s.draws := rfl

/-! ### answer and silent -/

@[simp] theorem State.answer_cfg : (s.answer w).cfg = s.cfg := rfl
@[simp] theorem State.answer_units : (s.answer w).units = s.units := rfl
@[simp] theorem State.answer_diag : (s.answer w).diag = s.diag := rfl
@[simp] theorem State.answer_refused : (s.answer w).refused = s.refused := rfl
@[simp] theorem State.answer_extLog : (s.answer w).extLog = s.extLog := rfl
@[simp] theorem State.answer_result : (s.answer w).result = some w := rfl
@[simp] theorem State.answer_issued : (s.answer w).issued = s.issued := rfl
@[simp] theorem State.answer_draws : (s.answer w).draws = s.draws := rfl
@[simp] theorem State.answer_unit : (s.answer w).unit u = s.unit u := rfl

@[simp] theorem State.silent_cfg : s.silent.cfg = s.cfg := rfl
@[simp] theorem State.silent_units : s.silent.units = s.units := rfl
@[simp] theorem State.silent_diag : s.silent.diag = s.diag := rfl
@[simp] theorem State.silent_refused : s.silent.refused = s.refused := rfl
@[simp] theorem State.silent_extLog : s.silent.extLog = s.extLog := rfl
@[simp] theorem State.silent_result : s.silent.result = none := rfl
@[simp] theorem State.silent_issued : s.silent.issued = s.issued := rfl
@[simp] theorem State.silent_draws : s.silent.draws = s.draws := rfl
@[simp] theorem State.silent_unit : s.silent.unit u = s.unit u := rfl

/-! ### the logs, the mark and the draw -/

variable (op : BusOp) (a : RealAddr) (x : Option Data) (e : Nat) (off : Offset) (why : MarkReason) (p : Request)

@[simp] theorem State.diagnose_cfg : (s.diagnose op a x).cfg = s.cfg := rfl
@[simp] theorem State.diagnose_units : (s.diagnose op a x).units = s.units := rfl
@[simp] theorem State.diagnose_unit : (s.diagnose op a x).unit u = s.unit u := rfl
@[simp] theorem State.diagnose_diag : (s.diagnose op a x).diag = s.diag ++ [⟨op, a, x⟩] := rfl
@[simp] theorem State.diagnose_refused : (s.diagnose op a x).refused = s.refused := rfl
@[simp] theorem State.diagnose_extLog : (s.diagnose op a x).extLog = s.extLog := rfl
@[simp] theorem State.diagnose_issued : (s.diagnose op a x).issued = s.issued := rfl
@[simp] theorem State.diagnose_draws : (s.diagnose op a x).draws = s.draws := rfl

@[simp] theorem State.extWrite_cfg : (s.extWrite e off w).cfg = s.cfg := rfl
@[simp] theorem State.extWrite_units : (s.extWrite e off w).units = s.units := rfl
@[simp] theorem State.extWrite_unit : (s.extWrite e off w).unit u = s.unit u := rfl
@[simp] theorem State.extWrite_diag : (s.extWrite e off w).diag = s.diag := rfl
@[simp] theorem State.extWrite_refused : (s.extWrite e off w).refused = s.refused := rfl
@[simp] theorem State.extWrite_extLog : (s.extWrite e off w).extLog = s.extLog ++ [⟨e, off, w⟩] := rfl
@[simp] theorem State.extWrite_issued : (s.extWrite e off w).issued = s.issued := rfl
@[simp] theorem State.extWrite_draws : (s.extWrite e off w).draws = s.draws := rfl

@[simp] theorem State.answerDraw_cfg : (s.answerDraw e off).cfg = s.cfg := rfl
@[simp] theorem State.answerDraw_units : (s.answerDraw e off).units = s.units := rfl
@[simp] theorem State.answerDraw_unit : (s.answerDraw e off).unit u = s.unit u := rfl
@[simp] theorem State.answerDraw_diag : (s.answerDraw e off).diag = s.diag := rfl
@[simp] theorem State.answerDraw_refused : (s.answerDraw e off).refused = s.refused := rfl
@[simp] theorem State.answerDraw_extLog : (s.answerDraw e off).extLog = s.extLog := rfl
@[simp] theorem State.answerDraw_issued : (s.answerDraw e off).issued = s.issued := rfl
@[simp] theorem State.answerDraw_draws : (s.answerDraw e off).draws = s.draws + 1 := rfl

@[simp] theorem State.mark_cfg : (s.mark why).cfg = s.cfg := rfl
@[simp] theorem State.mark_units : (s.mark why).units = s.units := rfl
@[simp] theorem State.mark_unit : (s.mark why).unit u = s.unit u := rfl
@[simp] theorem State.mark_diag : (s.mark why).diag = s.diag := rfl
@[simp] theorem State.mark_extLog : (s.mark why).extLog = s.extLog := rfl
@[simp] theorem State.mark_result : (s.mark why).result = s.result := rfl
@[simp] theorem State.mark_issued : (s.mark why).issued = s.issued := rfl
@[simp] theorem State.mark_draws : (s.mark why).draws = s.draws := rfl

/-- There is one reason, so the mark after `refuse` is that reason (R30). -/
@[simp] theorem State.mark_refused : (s.mark why).refused = some .unmodelledTransfer := by
  cases why
  rcases h : s.refused with _ | ⟨⟩ <;> simp [State.mark, h]

/-- The start of a transfer is the baseline's mark (R94). -/
@[simp] theorem State.transferStart_eq : s.transferStart u p = s.mark .unmodelledTransfer := by
  unfold State.transferStart
  cases s.cfg.transfer
  rfl

@[simp] theorem State.resetUnits_cfg : s.resetUnits.cfg = s.cfg := rfl
@[simp] theorem State.resetUnits_units : s.resetUnits.units = s.units.map DrumUnit.reset := rfl
@[simp] theorem State.resetUnits_diag : s.resetUnits.diag = s.diag := rfl
@[simp] theorem State.resetUnits_refused : s.resetUnits.refused = s.refused := rfl
@[simp] theorem State.resetUnits_extLog : s.resetUnits.extLog = s.extLog := rfl
@[simp] theorem State.resetUnits_issued : s.resetUnits.issued = s.issued := rfl
@[simp] theorem State.resetUnits_draws : s.resetUnits.draws = s.draws := rfl

/-! ### reading a unit -/

/-- Writing a unit that exists and reading it gives what was written. -/
theorem State.unit_setUnit_same (h : u < s.units.length) : (s.setUnit u d).unit u = d := by
  simp [State.unit, State.setUnit, List.getD_eq_getElem?_getD, h]

/-- Writing one unit leaves the others. -/
theorem State.unit_setUnit_of_ne (h : v ≠ u) : (s.setUnit u d).unit v = s.unit v := by
  simp [State.unit, State.setUnit, List.getD_eq_getElem?_getD, List.getElem?_set_ne (Ne.symm h)]

/-- A unit after `setUnit`: the written one, or as before. -/
theorem State.unit_setUnit_cases :
    (v = u ∧ u < s.units.length ∧ (s.setUnit u d).unit v = d) ∨ (s.setUnit u d).unit v = s.unit v := by
  by_cases hv : v = u
  · subst hv
    by_cases h : v < s.units.length
    · exact .inl ⟨rfl, h, State.unit_setUnit_same s v d h⟩
    · refine .inr ?_
      have hs : s.units.set v d = s.units := List.set_eq_of_length_le (Nat.le_of_not_lt h)
      simp [State.unit, State.setUnit, hs]
  · exact .inr (State.unit_setUnit_of_ne s u v d hv)

/-- Writing a unit back changes nothing. -/
theorem State.setUnit_unit_self : s.setUnit u (s.unit u) = s := by
  have h : s.units.set u (s.units.getD u DrumUnit.created) = s.units := by
    apply List.ext_getElem?
    intro n
    by_cases hn : u = n
    · subst hn
      by_cases hl : u < s.units.length
      · simp [hl]
      · simp [Nat.le_of_not_lt hl]
    · simp [List.getElem?_set_ne hn]
  unfold State.setUnit State.unit
  rw [h]

/-- Writing a unit twice leaves the second value. -/
theorem State.setUnit_setUnit (d' : DrumUnit) : (s.setUnit u d).setUnit u d' = s.setUnit u d' := by
  simp [State.setUnit]

/-- Writes of two units commute. -/
theorem State.setUnit_comm (d' : DrumUnit) (h : u ≠ v) :
    (s.setUnit u d).setUnit v d' = (s.setUnit v d').setUnit u d := by
  simp [State.setUnit, List.set_comm d d' h]

/-- Every unit after RESET (R110). -/
theorem State.unit_resetUnits (h : u < s.units.length) : s.resetUnits.unit u = (s.unit u).reset := by
  simp [State.unit, List.getD_eq_getElem?_getD, h]

/-- The units at creation (R109). -/
theorem State.unit_created (c : Config) : (State.created c).unit u = DrumUnit.created := by
  by_cases h : u < c.nDrums
  · simp [State.unit, State.created, List.getD_eq_getElem?_getD, h]
  · simp [State.unit, State.created, List.getD_eq_getElem?_getD, Nat.le_of_not_lt h]

end Sys2Proof.Machine
end

