-- ==== Sys2Proof/Laws/Lines.lean ====
section
/-! SUPPORT. What each drum line reads and stores, from the generic RegisterFile formulas (R57 to R64, R77). -/

namespace Sys2Proof

/-! ### One write kind at a time -/

theorem LineDesc.newValue_merge (D : LineDesc) (old d : Data) (h : D.kind = .merge) :
    D.newValue old d = (old &&& ~~~D.writeMask) ||| (D.cut d &&& D.writeMask) := by
  simp [LineDesc.newValue, h]

theorem LineDesc.newValue_w1c (D : LineDesc) (old d : Data) (h : D.kind = .w1c) :
    D.newValue old d = old &&& ~~~(D.cut d &&& D.writeMask) := by
  simp [LineDesc.newValue, h]

theorem LineDesc.newValue_repack (D : LineDesc) (F old d : Data) (h : D.kind = .repack F) :
    D.newValue old d = (D.cut d &&& D.writeMask) ||| F := by
  simp [LineDesc.newValue, h]

/-- Bit k of a cut datum. -/
theorem LineDesc.getLsbD_cut (D : LineDesc) (d : Data) (k : Nat) :
    (D.cut d).getLsbD k = (decide (k < 64) && decide (k < D.width) && d.getLsbD k) := by
  simp [LineDesc.cut, BitVec.getLsbD_setWidth, Bool.and_assoc]

/-- What check 1 of R67 says of the mask. -/
theorem LineDesc.cut_mask_of_widthOk (D : LineDesc) (h : D.widthOk = true) : D.cut D.writeMask = D.writeMask := by
  simp [LineDesc.widthOk] at h
  exact h.2

/-- A mask within the width has no bit at or above it. -/
theorem LineDesc.mask_lt_width (D : LineDesc) (h : D.widthOk = true) (k : Nat)
    (hk : D.writeMask.getLsbD k = true) : k < D.width := by
  rw [← D.cut_mask_of_widthOk h, D.getLsbD_cut] at hk
  simp at hk
  exact hk.1.2

/-- Under the write mask the cut of R64 makes no difference. -/
theorem LineDesc.cut_and_mask (D : LineDesc) (d : Data) (h : D.widthOk = true) :
    D.cut d &&& D.writeMask = d &&& D.writeMask := by
  apply BitVec.eq_of_getLsbD_eq
  intro k hk
  have hm := D.mask_lt_width h k
  rw [BitVec.getLsbD_and, BitVec.getLsbD_and, D.getLsbD_cut]
  cases hb : D.writeMask.getLsbD k
  · simp
  · simp [hk, hm hb]

namespace Machine

variable (c : Config) (bpb : Nat) (U : DrumUnit) (d : Data)

/-! ### The five lines of a unit -/

theorem getLsbD_addressMask (k : Nat) (h : k < 28) : addressMask.getLsbD k = true := by
  rw [show addressMask = BitVec.allOnes 28 by decide, BitVec.getLsbD_allOnes]
  simp [h]

/-- VW.DA on a unit: validation of the word to be stored, then the store (R79). -/
theorem DrumUnit.writeLine_da :
    U.writeLine c bpb .da d =
      { U.validate c bpb ((d.setWidth 32 &&& c.discAddressMask) ||| daFixedBit) with
        da := (d.setWidth 32 &&& c.discAddressMask) ||| daFixedBit } := by
  have h : ((c.lineDesc .da).newValue (U.line .da) d).setWidth 32
      = (d.setWidth 32 &&& c.discAddressMask) ||| daFixedBit := by
    simp only [LineDesc.newValue, Config.lineDesc, LineDesc.cut]
    ext k hk
    have : k < 64 := by omega
    simp [this]
  have e : U.writeLine c bpb .da d =
    { U.validate c bpb (((c.lineDesc .da).newValue (U.line .da) d).setWidth 32) with
      da := ((c.lineDesc .da).newValue (U.line .da) d).setWidth 32 } := rfl
  rw [e, h]

/-- VW.SA on a unit: `L(SA) <- d[27:0]` (R82). -/
theorem DrumUnit.writeLine_sa : U.writeLine c bpb .sa d = { U with sa := d.extractLsb' 0 28 } := by
  have h : ((c.lineDesc .sa).newValue (U.line .sa) d).setWidth 28 = d.extractLsb' 0 28 := by
    simp only [LineDesc.newValue, Config.lineDesc, DrumUnit.line, LineDesc.cut]
    ext k hk
    have : k < 64 := by omega
    have hm := getLsbD_addressMask k hk
    rw [BitVec.getLsbD_eq_getElem hk] at hm
    simp [this, hm]
  have e : U.writeLine c bpb .sa d = { U with sa := ((c.lineDesc .sa).newValue (U.line .sa) d).setWidth 28 } := rfl
  rw [e, h]

/-- VW.CA on a unit: `L(CA) <- d[27:0]` (R84). -/
theorem DrumUnit.writeLine_ca : U.writeLine c bpb .ca d = { U with ca := d.extractLsb' 0 28 } := by
  have h := congrArg DrumUnit.sa (DrumUnit.writeLine_sa c bpb { U with sa := U.ca } d)
  have e : U.writeLine c bpb .ca d =
    { U with ca := (({ U with sa := U.ca } : DrumUnit).writeLine c bpb .sa d).sa } := rfl
  rw [e, h]

/-- VW.DS on a unit: `L(DS) <- L(DS) & ~(d[31:0] & 0x7FFFDBCF)` (R86). -/
theorem DrumUnit.writeLine_ds :
    U.writeLine c bpb .ds d = { U with ds := U.ds &&& ~~~(d.setWidth 32 &&& dsWriteMask) } := by
  have h : ((c.lineDesc .ds).newValue (U.line .ds) d).setWidth 32 = U.ds &&& ~~~(d.setWidth 32 &&& dsWriteMask) := by
    simp only [LineDesc.newValue, Config.lineDesc, DrumUnit.line, LineDesc.cut]
    ext k hk
    have : k < 64 := by omega
    simp [this]
  have e : U.writeLine c bpb .ds d = { U with ds := ((c.lineDesc .ds).newValue (U.line .ds) d).setWidth 32 } := rfl
  rw [e, h]

/-- VW.CP on a unit: nothing (R63, R88). -/
theorem DrumUnit.writeLine_cp : U.writeLine c bpb .cp d = U := rfl

/-- VR.DA: bit 31 forced to 1 (R78). -/
theorem readValue_da : (c.lineDesc .da).readValue (U.line .da) = (U.da ||| daFixedBit).setWidth 64 := by
  simp only [LineDesc.readValue, ReadTransform.apply, Config.lineDesc, DrumUnit.line]
  ext k hk
  simp

/-- VR.DS: bits 3:0 read as 0 (R85). -/
theorem readValue_ds : (c.lineDesc .ds).readValue (U.line .ds) = (U.ds &&& dsReadMask).setWidth 64 := by
  simp only [LineDesc.readValue, ReadTransform.apply, Config.lineDesc, DrumUnit.line]
  ext k hk
  simp

/-! ### A line of a unit read back -/

/-- The line written holds the datum cut to its width (R13); CP holds none. -/
theorem DrumUnit.line_setLine_same (X : Line) :
    (U.setLine X d).line X =
      match X with
      | .da => (d.setWidth 32).setWidth 64
      | .sa => (d.setWidth 28).setWidth 64
      | .ca => (d.setWidth 28).setWidth 64
      | .ds => (d.setWidth 32).setWidth 64
      | .cp => 0 := by
  cases X <;> rfl

/-- The other lines keep their values. -/
theorem DrumUnit.line_setLine_of_ne (X Y : Line) (h : Y ≠ X) : (U.setLine X d).line Y = U.line Y := by
  cases X <;> cases Y <;> first | rfl | exact absurd rfl h

@[simp] theorem DrumUnit.setLine_pos (X : Line) : (U.setLine X d).pos = U.pos := by cases X <;> rfl
@[simp] theorem DrumUnit.setLine_attached (X : Line) : (U.setLine X d).attached = U.attached := by cases X <;> rfl
@[simp] theorem DrumUnit.setLine_req (X : Line) : (U.setLine X d).req = U.req := by cases X <;> rfl

@[simp] theorem DrumUnit.validate_da (new : BitVec 32) : (U.validate c bpb new).da = U.da := rfl
@[simp] theorem DrumUnit.validate_sa (new : BitVec 32) : (U.validate c bpb new).sa = U.sa := rfl
@[simp] theorem DrumUnit.validate_ca (new : BitVec 32) : (U.validate c bpb new).ca = U.ca := rfl
@[simp] theorem DrumUnit.validate_pos (new : BitVec 32) : (U.validate c bpb new).pos = U.pos := rfl
@[simp] theorem DrumUnit.validate_attached (new : BitVec 32) : (U.validate c bpb new).attached = U.attached := rfl

/-- The write of any line leaves position and attach flag (R16, R25, R26). -/
@[simp] theorem DrumUnit.writeLine_pos (X : Line) : (U.writeLine c bpb X d).pos = U.pos := by cases X <;> rfl
@[simp] theorem DrumUnit.writeLine_attached (X : Line) : (U.writeLine c bpb X d).attached = U.attached := by
  cases X <;> rfl

/-- The write of any line but DA leaves the request (R82, R84, R86, R88). -/
theorem DrumUnit.writeLine_req (X : Line) (h : X ≠ .da) : (U.writeLine c bpb X d).req = U.req := by
  cases X
  · exact absurd rfl h
  all_goals rfl

/-- The write of line X leaves line Y, but for DS under a write of DA (R19, R79). -/
theorem DrumUnit.writeLine_line (X Y : Line) (h : Y ≠ X) (hds : ¬ (X = .da ∧ Y = .ds)) :
    (U.writeLine c bpb X d).line Y = U.line Y := by
  cases X <;> cases Y <;> first | rfl | exact absurd rfl h | exact absurd ⟨rfl, rfl⟩ hds

end Machine

end Sys2Proof
end

