-- ==== Sys2Proof/Laws/Ops.lean ====
section
/-! SUPPORT. What each shared operation can do, said once: the guards (onUnit, onLine, onUnmapped, onFile), the
Vx-Store read and write, the Exchange, and one advance. -/

namespace Sys2Proof

/-! ### The configuration's tables -/

/-- A located pair is one DRUM_LINE_MAP gives the line (R52). -/
theorem LineOperand.lineAt_of_locate {c : Config} {X : Line} {r : LineOperand} {a : VxAddr}
    (h : r.locate c X = some a) : c.lineAt a = some X := by
  unfold LineOperand.locate at h
  split at h
  · simp at h
  · split at h
    · next hx => rw [Option.some.injEq] at h; rw [← h]; exact hx
    · simp at h

/-- An operand that names the line is located. -/
theorem LineOperand.locate_of_names {c : Config} {X : Line} {r : LineOperand} (h : r.names c X = true) :
    ∃ a, r.locate c X = some a := Option.isSome_iff_exists.mp h

/-- A real address of a line: its route and its resolved pair (R70, R74). -/
theorem Config.addresses_iff {c : Config} {a : RealAddr} {u : Nat} {X : Line} :
    c.addresses a u X = true ↔
      c.routeOf (addrUnit a) = .drum u ∧ ∃ p, c.resolveOffset (addrOffset a) = some p ∧ c.lineAt p = some X := by
  unfold Config.addresses
  constructor
  · intro h
    split at h
    · next v p hv hp =>
      simp only [Bool.and_eq_true, beq_iff_eq] at h
      exact ⟨by rw [hv, h.1], p, hp, h.2⟩
    · simp at h
  · rintro ⟨hr, p, hp, hl⟩
    rw [hr, hp]
    simp [hl]

namespace Machine

variable {s t : State} {u : UnitNo} {r : LineOperand} {X : Line}

/-! ### Guards -/

/-- An operation with the operand `u` completes exactly if the unit exists and what it does completes. -/
theorem onUnit_next {k : Nat → Result} :
    onUnit s u k = .next t ↔ u.toNat < s.cfg.nDrums ∧ k u.toNat = .next t := by
  unfold onUnit
  split <;> simp [*]

theorem onUnit_eq {k : Nat → Result} (h : u.toNat < s.cfg.nDrums) : onUnit s u k = k u.toNat := if_pos h

theorem onUnit_refused {k : Nat → Result} (h : s.cfg.nDrums ≤ u.toNat) : onUnit s u k = .refused .noSuchUnit :=
  if_neg (Nat.not_lt.mpr h)

/-- An operation VR.X or VW.X completes exactly if its unit exists, its pair is located and what it does completes. -/
theorem onLine_next {k : Nat → VxAddr → Result} :
    onLine s X u r k = .next t ↔
      u.toNat < s.cfg.nDrums ∧ ∃ a, r.locate s.cfg X = some a ∧ k u.toNat a = .next t := by
  unfold onLine
  rw [onUnit_next]
  cases h : r.locate s.cfg X <;> simp

theorem onLine_eq {k : Nat → VxAddr → Result} {a : VxAddr} (h : u.toNat < s.cfg.nDrums)
    (ha : r.locate s.cfg X = some a) : onLine s X u r k = k u.toNat a := by
  unfold onLine
  rw [onUnit_eq h, ha]

theorem onUnmapped_next {k : Result} :
    onUnmapped s u r k = .next t ↔ u.toNat < s.cfg.nDrums ∧ r.unmapped s.cfg = true ∧ k = .next t := by
  unfold onUnmapped
  rw [onUnit_next]
  cases h : r.unmapped s.cfg <;> simp

theorem onUnmapped_eq {k : Result} (h : u.toNat < s.cfg.nDrums) (hr : r.unmapped s.cfg = true) :
    onUnmapped s u r k = k := by
  unfold onUnmapped
  rw [onUnit_eq h, if_pos hr]

theorem onFile_next {rf : BitVec 8} {k : Nat → Result} :
    onFile s rf k = .next t ↔ rf.toNat < s.cfg.nDrums ∧ k rf.toNat = .next t := by
  unfold onFile
  split <;> simp [*]

theorem onFile_eq {rf : BitVec 8} {k : Nat → Result} (h : rf.toNat < s.cfg.nDrums) : onFile s rf k = k rf.toNat :=
  if_pos h

/-! ### Reads -/

/-- What a Vx-Store read returns, pair by pair (R57, R66, R77). -/
theorem State.vxRead_eq (s : State) (v : Nat) (a : VxAddr) :
    s.vxRead v a =
      match s.cfg.lineAt a with
      | none => 0
      | some .da => ((s.unit v).da ||| daFixedBit).setWidth 64
      | some .sa => (s.unit v).sa.setWidth 64
      | some .ca => (s.unit v).ca.setWidth 64
      | some .ds => ((s.unit v).ds &&& dsReadMask).setWidth 64
      | some .cp => ((s.cpValue v).setWidth 24).setWidth 64 := by
  unfold State.vxRead
  rcases s.cfg.lineAt a with _ | X
  · rfl
  · cases X
    · exact readValue_da s.cfg (s.unit v)
    · rfl
    · rfl
    · exact readValue_ds s.cfg (s.unit v)
    · rfl

/-- A Vx-Store read does not see the returned datum, the logs, the mark, the issued records or the draws (R37). -/
theorem State.vxRead_congr (s t : State) (v : Nat) (a : VxAddr) (hc : t.cfg = s.cfg) (hu : t.units = s.units) :
    t.vxRead v a = s.vxRead v a := by
  rw [State.vxRead_eq, State.vxRead_eq, hc]
  simp only [State.cpValue, State.unit, hc, hu]

/-! ### Writes -/

/-- What a Vx-Store write does to a state, pair by pair (R58, R66, R77). -/
theorem State.vxWrite_eq (s : State) (v : Nat) (a : VxAddr) (d : Data) :
    s.vxWrite v a d =
      match s.cfg.lineAt a with
      | none => s
      | some X => s.setUnit v ((s.unit v).writeLine s.cfg (s.cfg.bpbOf v) X d) := rfl

/-- A Vx-Store write changes nothing but one unit. -/
theorem State.vxWrite_eq_setUnit (s : State) (v : Nat) (a : VxAddr) (d : Data) :
    ∃ U, s.vxWrite v a d = s.setUnit v U := by
  rw [State.vxWrite_eq]
  rcases s.cfg.lineAt a with _ | X
  · exact ⟨s.unit v, (State.setUnit_unit_self s v).symm⟩
  · exact ⟨_, rfl⟩

/-- What a bus write to a drum unit does (R74). -/
theorem State.drumWrite_eq_setUnit (s : State) (v : Nat) (off : Offset) (d : Data) :
    ∃ U, s.drumWrite v off d = s.setUnit v U := by
  unfold State.drumWrite
  cases s.cfg.resolveOffset off with
  | none => exact ⟨s.unit v, (State.setUnit_unit_self s v).symm⟩
  | some a => exact State.vxWrite_eq_setUnit s v a d

/-- A bus read at an address of line X is the read of that line (R72, R74). -/
theorem State.busRead_of_addresses {a : RealAddr} {v : Nat} (h : s.cfg.addresses a v X = true) :
    ∃ p, s.cfg.lineAt p = some X ∧ s.busRead a = s.answer (s.vxRead v p) := by
  obtain ⟨hr, p, hp, hl⟩ := Config.addresses_iff.mp h
  refine ⟨p, hl, ?_⟩
  simp [State.busRead, hr, State.drumRead, hp]

/-- A bus write at an address of line X is the write of that line (R73, R74). -/
theorem State.busWrite_of_addresses {a : RealAddr} {v : Nat} {d : Data} (h : s.cfg.addresses a v X = true) :
    ∃ p, s.cfg.lineAt p = some X ∧ s.busWrite a d = s.vxWrite v p d := by
  obtain ⟨hr, p, hp, hl⟩ := Config.addresses_iff.mp h
  refine ⟨p, hl, ?_⟩
  simp [State.busWrite, hr, State.drumWrite, hp]

/-- A bus write does one of four things: a diagnostic, nothing, a line write, a forwarded write (R73). -/
theorem State.busWrite_cases (s : State) (a : RealAddr) (d : Data) :
    (s.cfg.routeOf (addrUnit a) = .unrouted ∧ s.busWrite a d = s.diagnose .write a (some d))
      ∨ (∃ v, s.cfg.routeOf (addrUnit a) = .drum v ∧ (∀ X, s.cfg.addresses a v X = false) ∧ s.busWrite a d = s)
      ∨ (∃ v X, s.cfg.routeOf (addrUnit a) = .drum v ∧ s.cfg.addresses a v X = true
          ∧ s.busWrite a d = s.setUnit v ((s.unit v).writeLine s.cfg (s.cfg.bpbOf v) X d))
      ∨ ∃ e, s.cfg.routeOf (addrUnit a) = .external e ∧ s.busWrite a d = s.extWrite e (addrOffset a) d := by
  unfold State.busWrite
  cases hr : s.cfg.routeOf (addrUnit a) with
  | unrouted => exact .inl ⟨rfl, rfl⟩
  | external e => exact .inr (.inr (.inr ⟨e, rfl, rfl⟩))
  | drum v =>
    unfold State.drumWrite
    cases hp : s.cfg.resolveOffset (addrOffset a) with
    | none =>
      refine .inr (.inl ⟨v, rfl, fun X => ?_, rfl⟩)
      simp [Config.addresses, hr, hp]
    | some p =>
      cases hl : s.cfg.lineAt p with
      | none =>
        refine .inr (.inl ⟨v, rfl, fun X => ?_, ?_⟩)
        · simp [Config.addresses, hr, hp, hl]
        · simp [State.vxWrite_eq, hl]
      | some X =>
        refine .inr (.inr (.inl ⟨v, X, rfl, ?_, ?_⟩))
        · exact Config.addresses_iff.mpr ⟨hr, p, hp, hl⟩
        · simp [State.vxWrite_eq, hl]

/-- A bus read changes one of the diagnostics, the draw counter, or nothing but the datum (R72). -/
theorem State.busRead_cases (s : State) (a : RealAddr) :
    (s.cfg.routeOf (addrUnit a) = .unrouted ∧ s.busRead a = (s.diagnose .read a none).answer 0)
      ∨ (∃ v, s.cfg.routeOf (addrUnit a) = .drum v ∧ s.busRead a = s.answer (s.drumRead v (addrOffset a)))
      ∨ ∃ e, s.cfg.routeOf (addrUnit a) = .external e ∧ s.busRead a = s.answerDraw e (addrOffset a) := by
  unfold State.busRead
  cases s.cfg.routeOf (addrUnit a) with
  | unrouted => exact .inl ⟨rfl, rfl⟩
  | drum v => exact .inr (.inl ⟨v, rfl, rfl⟩)
  | external e => exact .inr (.inr ⟨e, rfl, rfl⟩)

/-! ### One advance (R90, R94) -/

/-- The unit after an advance. -/
def DrumUnit.advanced (bpb : Nat) (d : DrumUnit) : DrumUnit :=
  match (d.rotate bpb).arrived with
  | none => d.rotate bpb
  | some p => { d.rotate bpb with req := .inTransfer p }

/-- An advance writes one unit, and marks the state exactly if the unit's Pending request has arrived. -/
theorem State.advance_eq (s : State) (v : Nat) :
    s.advance v =
      let t := s.setUnit v ((s.unit v).advanced (s.cfg.bpbOf v))
      if (((s.unit v).rotate (s.cfg.bpbOf v)).arrived).isSome then t.mark .unmodelledTransfer else t := by
  unfold State.advance DrumUnit.advanced
  cases h : ((s.unit v).rotate (s.cfg.bpbOf v)).arrived <;> simp [h]

/-- The request that arrives is a Pending one whose block is the new position (R90). -/
theorem DrumUnit.arrived_iff (bpb : Nat) (d : DrumUnit) (p : Request) :
    (d.rotate bpb).arrived = some p ↔ d.req = .pending p ∧ (d.pos + 1) % bpb = p.block.toNat := by
  unfold DrumUnit.arrived DrumUnit.rotate
  cases h : d.req with
  | noRequest => simp
  | inTransfer q => simp
  | pending q =>
    simp only [ReqState.pending.injEq]
    constructor
    · intro hs
      split at hs
      · rw [Option.some.injEq] at hs
        subst hs
        exact ⟨rfl, ‹_›⟩
      · simp at hs
    · rintro ⟨rfl, hb⟩
      rw [if_pos hb]

@[simp] theorem DrumUnit.rotate_pos (bpb : Nat) (d : DrumUnit) : (d.rotate bpb).pos = (d.pos + 1) % bpb := rfl

@[simp] theorem DrumUnit.advanced_pos (bpb : Nat) (d : DrumUnit) : (d.advanced bpb).pos = (d.pos + 1) % bpb := by
  unfold DrumUnit.advanced
  split <;> rfl

@[simp] theorem DrumUnit.advanced_attached (bpb : Nat) (d : DrumUnit) : (d.advanced bpb).attached = d.attached := by
  unfold DrumUnit.advanced
  split <;> rfl

@[simp] theorem DrumUnit.advanced_line (bpb : Nat) (d : DrumUnit) (X : Line) : (d.advanced bpb).line X = d.line X := by
  unfold DrumUnit.advanced
  split <;> cases X <;> rfl

/-- The request after an advance: started, or as before (R90). -/
theorem DrumUnit.advanced_req (bpb : Nat) (d : DrumUnit) :
    (∃ p, (d.rotate bpb).arrived = some p ∧ (d.advanced bpb).req = .inTransfer p)
      ∨ ((d.rotate bpb).arrived = none ∧ (d.advanced bpb).req = d.req) := by
  unfold DrumUnit.advanced
  cases (d.rotate bpb).arrived with
  | none => exact .inr ⟨rfl, rfl⟩
  | some p => exact .inl ⟨p, rfl, rfl⟩

@[simp] theorem State.advance_cfg (s : State) (v : Nat) : (s.advance v).cfg = s.cfg := by
  rw [State.advance_eq]; simp only; split <;> rfl
@[simp] theorem State.advance_units (s : State) (v : Nat) :
    (s.advance v).units = s.units.set v ((s.unit v).advanced (s.cfg.bpbOf v)) := by
  rw [State.advance_eq]; simp only; split <;> rfl
@[simp] theorem State.advance_diag (s : State) (v : Nat) : (s.advance v).diag = s.diag := by
  rw [State.advance_eq]; simp only; split <;> rfl
@[simp] theorem State.advance_extLog (s : State) (v : Nat) : (s.advance v).extLog = s.extLog := by
  rw [State.advance_eq]; simp only; split <;> rfl
@[simp] theorem State.advance_result (s : State) (v : Nat) : (s.advance v).result = s.result := by
  rw [State.advance_eq]; simp only; split <;> rfl
@[simp] theorem State.advance_issued (s : State) (v : Nat) : (s.advance v).issued = s.issued := by
  rw [State.advance_eq]; simp only; split <;> rfl
@[simp] theorem State.advance_draws (s : State) (v : Nat) : (s.advance v).draws = s.draws := by
  rw [State.advance_eq]; simp only; split <;> rfl

/-- The mark after an advance (R94). -/
theorem State.advance_refused (s : State) (v : Nat) :
    (s.advance v).refused =
      if (((s.unit v).rotate (s.cfg.bpbOf v)).arrived).isSome then some .unmodelledTransfer else s.refused := by
  rw [State.advance_eq]; simp only; split <;> simp

/-- The advanced unit. -/
theorem State.unit_advance_same (s : State) (v : Nat) (h : v < s.units.length) :
    (s.advance v).unit v = (s.unit v).advanced (s.cfg.bpbOf v) := by
  simp [State.unit, List.getD_eq_getElem?_getD, h]

/-- The other units (R92). -/
theorem State.unit_advance_of_ne (s : State) (v w : Nat) (h : w ≠ v) : (s.advance v).unit w = s.unit w := by
  simp [State.unit, List.getD_eq_getElem?_getD, List.getElem?_set_ne (Ne.symm h)]

end Machine

end Sys2Proof
end

