-- ==== Sys2Proof/Laws/Exec.lean ====
section
/-! SUPPORT. What exec answers for each operation whose operands are in order: one equation an operation, in terms of the
shared operations. -/

namespace Sys2Proof.Machine

variable {s : State} {u : UnitNo} {r : LineOperand} {X : Line} {d : Data}

/-- VR.X reads the located line (R77). -/
theorem readLine_eq (hu : u.toNat < s.cfg.nDrums) (hr : r.names s.cfg X = true) :
    ∃ p, s.cfg.lineAt p = some X ∧ readLine s X u r = .next (s.answer (s.vxRead u.toNat p)) := by
  obtain ⟨p, hp⟩ := LineOperand.locate_of_names hr
  exact ⟨p, LineOperand.lineAt_of_locate hp, onLine_eq hu hp⟩

/-- VW.X writes the located line of its unit (R77). -/
theorem writeLine_eq (hu : u.toNat < s.cfg.nDrums) (hr : r.names s.cfg X = true) :
    writeLine s X u r d
      = .next (s.setUnit u.toNat ((s.unit u.toNat).writeLine s.cfg (s.cfg.bpbOf u.toNat) X d)).silent := by
  obtain ⟨p, hp⟩ := LineOperand.locate_of_names hr
  refine (onLine_eq hu hp).trans ?_
  rw [State.vxWrite_eq, LineOperand.lineAt_of_locate hp]

/-- BR at an address of line X reads that line (R72, R74). -/
theorem exec_br_of_addresses {a : RealAddr} {v : Nat} (h : s.cfg.addresses a v X = true) :
    ∃ p, s.cfg.lineAt p = some X ∧ exec (.br a) s = .next (s.answer (s.vxRead v p)) := by
  obtain ⟨p, hp, hb⟩ := State.busRead_of_addresses h
  exact ⟨p, hp, congrArg Host.Outcome.next hb⟩

/-- BW at an address of line X writes that line (R73, R74). -/
theorem exec_bw_of_addresses {a : RealAddr} {v : Nat} (h : s.cfg.addresses a v X = true) :
    exec (.bw a d) s = .next (s.setUnit v ((s.unit v).writeLine s.cfg (s.cfg.bpbOf v) X d)).silent := by
  obtain ⟨p, hp, hb⟩ := State.busWrite_of_addresses (d := d) h
  rw [State.vxWrite_eq, hp] at hb
  exact congrArg (fun t => Host.Outcome.next (State.silent t)) hb

variable {b : BitVec 3} {l : BitVec 8} {rf : BitVec 8}

/-- VR.NONE (R89). -/
theorem exec_vrNone (hu : u.toNat < s.cfg.nDrums) (h : r.unmapped s.cfg = true) :
    exec (.vrNone u r) s = .next (s.answer 0) := onUnmapped_eq hu h

/-- VW.NONE (R89). -/
theorem exec_vwNone (hu : u.toNat < s.cfg.nDrums) (h : r.unmapped s.cfg = true) :
    exec (.vwNone u r d) s = .next s.silent := onUnmapped_eq hu h

theorem exec_rfRead (h : rf.toNat < s.cfg.nDrums) :
    exec (.rfRead rf b l) s = .next (s.answer (s.vxRead rf.toNat ⟨b, l⟩)) :=
  onFile_eq (k := fun v => .next (s.answer (s.vxRead v ⟨b, l⟩))) h

theorem exec_rfWrite (h : rf.toNat < s.cfg.nDrums) :
    exec (.rfWrite rf b l d) s = .next (s.vxWrite rf.toNat ⟨b, l⟩ d).silent :=
  onFile_eq (k := fun v => .next (s.vxWrite v ⟨b, l⟩ d).silent) h

theorem exec_adv (hu : u.toNat < s.cfg.nDrums) : exec (.adv u) s = .next (s.advance u.toNat).silent :=
  onUnit_eq (k := fun v => .next (s.advance v).silent) hu

theorem exec_attach (hu : u.toNat < s.cfg.nDrums) : exec (.attach u) s = .next (s.setAttached u.toNat true).silent :=
  onUnit_eq (k := fun v => .next (s.setAttached v true).silent) hu

theorem exec_detach (hu : u.toNat < s.cfg.nDrums) : exec (.detach u) s = .next (s.setAttached u.toNat false).silent :=
  onUnit_eq (k := fun v => .next (s.setAttached v false).silent) hu

/-- DEP.X (R68). -/
theorem depositLine_eq (hu : u.toNat < s.cfg.nDrums) : depositLine s X u d = .next (s.deposit u.toNat X d).silent :=
  onUnit_eq (k := fun v => .next (s.deposit v X d).silent) hu

/-- EXAM.X (R69). -/
theorem examineLine_eq (hu : u.toNat < s.cfg.nDrums) : examineLine s X u = .next (s.answer (s.examine u.toNat X)) :=
  onUnit_eq (k := fun v => .next (s.answer (s.examine v X))) hu

end Sys2Proof.Machine
end

