-- ==== Sys2Proof/Laws/Effect.lean ====
section
/-! SUPPORT. Everything an operation that completes can have done, said once: the inversion of exec that every rule of the
whole machine follows from. -/

namespace Sys2Proof.Machine

/-- What a completed operation did to the state (R17, R37, R57 to R96, R110). -/
inductive Effect (i : Instr) (s : State) : State → Prop where
  /-- A read of a drum line, by any operation: only the datum. -/
  | answered (v : Data) (h : i.reads = true ∨ ∃ a w, i = .br a ∧ s.cfg.routeOf (addrUnit a) = .drum w) : Effect i s (s.answer v)
  /-- A write that reaches no line. -/
  | discarded : Effect i s s.silent
  /-- A write of line X of unit v, and of no other unit. -/
  | wrote (v : Nat) (X : Line) (d : Data) (hw : i.writes s.cfg v X = true) (hd : ∀ w, i.directedAt s.cfg w = true → w = v) :
      Effect i s (s.setUnit v ((s.unit v).writeLine s.cfg (s.cfg.bpbOf v) X d)).silent
  /-- A deposit into line X of unit v. -/
  | deposited (v : Nat) (X : Line) (d : Data) (hw : i.deposits v X = true) (hd : ∀ w, i.directedAt s.cfg w = true → w = v) :
      Effect i s (s.deposit v X d).silent
  /-- ATTACH or DETACH of a unit. -/
  | attachment (v : UnitNo) (b : Bool) (hi : i = if b then .attach v else .detach v) : Effect i s (s.setAttached v.toNat b).silent
  /-- ADV of a unit. -/
  | advanced (v : UnitNo) (hi : i = .adv v) (hv : v.toNat < s.cfg.nDrums) : Effect i s (s.advance v.toNat).silent
  /-- TICK. -/
  | ticked (hi : i = .tick) : Effect i s s.tick.silent
  /-- RESET. -/
  | cleared (hi : i = .reset) : Effect i s s.resetUnits.silent
  /-- A bus read with no handler. -/
  | unroutedRead (a : RealAddr) (hi : i = .br a) (hr : s.cfg.routeOf (addrUnit a) = .unrouted) :
      Effect i s ((s.diagnose .read a none).answer 0)
  /-- A bus write with no handler. -/
  | unroutedWrite (a : RealAddr) (d : Data) (hi : i = .bw a d) (hr : s.cfg.routeOf (addrUnit a) = .unrouted) :
      Effect i s (s.diagnose .write a (some d)).silent
  /-- A bus read of an external unit. -/
  | externalRead (a : RealAddr) (e : Nat) (hi : i = .br a) (hr : s.cfg.routeOf (addrUnit a) = .external e) :
      Effect i s (s.answerDraw e (addrOffset a))
  /-- A bus write to an external unit. -/
  | externalWrite (a : RealAddr) (d : Data) (e : Nat) (hi : i = .bw a d) (hr : s.cfg.routeOf (addrUnit a) = .external e) :
      Effect i s (s.extWrite e (addrOffset a) d).silent

variable {i : Instr} {s t : State} {X : Line} {u : UnitNo} {r : LineOperand} {d : Data}

/-- VR.X that completes. -/
theorem readLine_effect (hi : i.reads = true) (h : readLine s X u r = .next t) : Effect i s t := by
  obtain ⟨_, p, _, he⟩ := onLine_next.mp h
  rw [Host.Outcome.next.injEq] at he
  exact he ▸ .answered _ (.inl hi)

/-- EXAM.X that completes. -/
theorem examineLine_effect (hi : i.reads = true) (h : examineLine s X u = .next t) : Effect i s t := by
  obtain ⟨_, he⟩ := onUnit_next.mp h
  rw [Host.Outcome.next.injEq] at he
  exact he ▸ .answered _ (.inl hi)

/-- VW.X that completes. -/
theorem writeLine_effect (hw : i.writes s.cfg u.toNat X = true) (hd : i.unitOperand = some u)
    (h : writeLine s X u r d = .next t) : Effect i s t := by
  obtain ⟨_, p, hp, he⟩ := onLine_next.mp h
  rw [Host.Outcome.next.injEq, State.vxWrite_eq, LineOperand.lineAt_of_locate hp] at he
  refine he ▸ .wrote u.toNat X d hw fun w hw' => ?_
  unfold Instr.directedAt at hw'
  rw [hd] at hw'
  exact (beq_iff_eq.mp hw').symm

/-- DEP.X that completes. -/
theorem depositLine_effect (hw : i.deposits u.toNat X = true) (hd : i.unitOperand = some u)
    (h : depositLine s X u d = .next t) : Effect i s t := by
  obtain ⟨_, he⟩ := onUnit_next.mp h
  rw [Host.Outcome.next.injEq] at he
  refine he ▸ .deposited u.toNat X d hw fun w hw' => ?_
  unfold Instr.directedAt at hw'
  rw [hd] at hw'
  exact (beq_iff_eq.mp hw').symm

/-- BR's effect. -/
theorem busRead_effect (a : RealAddr) : Effect (.br a) s (s.busRead a) := by
  rcases State.busRead_cases s a with ⟨hr, he⟩ | ⟨v, hr, he⟩ | ⟨e, hr, he⟩ <;> rw [he]
  · exact .unroutedRead a rfl hr
  · exact .answered _ (.inr ⟨a, v, rfl, hr⟩)
  · exact .externalRead a e rfl hr

/-- BW's effect. -/
theorem busWrite_effect (a : RealAddr) (d : Data) : Effect (.bw a d) s (s.busWrite a d).silent := by
  rcases State.busWrite_cases s a d with ⟨hr, he⟩ | ⟨v, hr, _, he⟩ | ⟨v, X, hr, hx, he⟩ | ⟨e, hr, he⟩ <;> rw [he]
  · exact .unroutedWrite a d rfl hr
  · exact .discarded
  · refine .wrote v X d hx fun w hw => ?_
    simp only [Instr.directedAt, Instr.unitOperand, hr, beq_iff_eq, Handler.drum.injEq] at hw
    exact hw.symm
  · exact .externalWrite a d e rfl hr

/-- RF.WRITE's effect. -/
theorem rfWrite_effect (rf : BitVec 8) (b : BitVec 3) (l : BitVec 8) (d : Data) :
    Effect (.rfWrite rf b l d) s (s.vxWrite rf.toNat ⟨b, l⟩ d).silent := by
  rw [State.vxWrite_eq]
  cases hl : s.cfg.lineAt ⟨b, l⟩ with
  | none => exact .discarded
  | some X =>
    refine .wrote rf.toNat X d ?_ fun w hw => ?_
    · simp [Instr.writes, hl]
    · simp only [Instr.directedAt, Instr.unitOperand, beq_iff_eq] at hw
      exact hw.symm

/-- Every operation that completes did one of the twelve things. -/
theorem exec_effect (h : exec i s = .next t) : Effect i s t := by
  cases i with
  | br a => exact (Host.Outcome.next.inj h) ▸ busRead_effect a
  | bw a d => exact (Host.Outcome.next.inj h) ▸ busWrite_effect a d
  | vrDa u r => exact readLine_effect rfl h
  | vrSa u r => exact readLine_effect rfl h
  | vrCa u r => exact readLine_effect rfl h
  | vrDs u r => exact readLine_effect rfl h
  | vrCp u r => exact readLine_effect rfl h
  | vrNone u r =>
    simp only [exec, execVrNone] at h
    obtain ⟨_, _, he⟩ := onUnmapped_next.mp h
    exact (Host.Outcome.next.inj he) ▸ .answered _ (.inl rfl)
  | vwDa u r d => exact writeLine_effect (by simp [Instr.writes]) rfl h
  | vwSa u r d => exact writeLine_effect (by simp [Instr.writes]) rfl h
  | vwCa u r d => exact writeLine_effect (by simp [Instr.writes]) rfl h
  | vwDs u r d => exact writeLine_effect (by simp [Instr.writes]) rfl h
  | vwCp u r d =>
    simp only [exec, execVwCp, writeLine] at h
    obtain ⟨_, p, hp, he⟩ := onLine_next.mp h
    rw [Host.Outcome.next.injEq, State.vxWrite_eq, LineOperand.lineAt_of_locate hp] at he
    simp only [DrumUnit.writeLine_cp, State.setUnit_unit_self] at he
    exact he ▸ .discarded
  | vwNone u r d =>
    simp only [exec, execVwNone] at h
    obtain ⟨_, _, he⟩ := onUnmapped_next.mp h
    exact (Host.Outcome.next.inj he) ▸ .discarded
  | tick => exact (Host.Outcome.next.inj h) ▸ .ticked rfl
  | adv u =>
    simp only [exec, execAdv] at h
    obtain ⟨hu, he⟩ := onUnit_next.mp h
    exact (Host.Outcome.next.inj he) ▸ .advanced u rfl hu
  | reset => exact (Host.Outcome.next.inj h) ▸ .cleared rfl
  | attach u =>
    simp only [exec, execAttach] at h
    obtain ⟨_, he⟩ := onUnit_next.mp h
    exact (Host.Outcome.next.inj he) ▸ .attachment u true rfl
  | detach u =>
    simp only [exec, execDetach] at h
    obtain ⟨_, he⟩ := onUnit_next.mp h
    exact (Host.Outcome.next.inj he) ▸ .attachment u false rfl
  | depDa u v => exact depositLine_effect (by simp [Instr.deposits]) rfl h
  | depSa u v => exact depositLine_effect (by simp [Instr.deposits]) rfl h
  | depCa u v => exact depositLine_effect (by simp [Instr.deposits]) rfl h
  | depDs u v => exact depositLine_effect (by simp [Instr.deposits]) rfl h
  | examDa u => exact examineLine_effect rfl h
  | examSa u => exact examineLine_effect rfl h
  | examCa u => exact examineLine_effect rfl h
  | examDs u => exact examineLine_effect rfl h
  | examCp u => exact examineLine_effect rfl h
  | rfRead rf b l =>
    simp only [exec, execRfRead] at h
    obtain ⟨_, he⟩ := onFile_next.mp h
    exact (Host.Outcome.next.inj he) ▸ .answered _ (.inl rfl)
  | rfWrite rf b l d =>
    simp only [exec, execRfWrite] at h
    obtain ⟨_, he⟩ := onFile_next.mp h
    exact (Host.Outcome.next.inj he) ▸ rfWrite_effect rf b l d

/-! ### The operations of a line, whatever their form -/

/-- Every well-formed write of line X of unit v, by the unit, a RegisterFile or the bus, is the write of that line. -/
theorem exec_of_writes {v : Nat} (hi : i.wf s.cfg = true) (hw : i.writes s.cfg v X = true) (hd : i.datum = some d) :
    exec i s = .next (s.setUnit v ((s.unit v).writeLine s.cfg (s.cfg.bpbOf v) X d)).silent := by
  have vw : ∀ (Y : Line) (u : UnitNo) (r : LineOperand) (e : Data), (s.cfg.hasUnit u && r.names s.cfg Y) = true →
      (u.toNat == v && X == Y) = true → some e = some d →
      writeLine s Y u r e = .next (s.setUnit v ((s.unit v).writeLine s.cfg (s.cfg.bpbOf v) X d)).silent := by
    intro Y u r e hi hw hd
    simp only [Bool.and_eq_true, beq_iff_eq, Config.hasUnit, decide_eq_true_eq] at hi hw
    obtain ⟨rfl, rfl⟩ := hw
    cases hd
    exact writeLine_eq hi.1 hi.2
  cases i with
  | vwDa u r e => exact vw .da u r e hi hw hd
  | vwSa u r e => exact vw .sa u r e hi hw hd
  | vwCa u r e => exact vw .ca u r e hi hw hd
  | vwDs u r e => exact vw .ds u r e hi hw hd
  | bw a e =>
    cases hd
    exact exec_bw_of_addresses hw
  | rfWrite rf b l e =>
    cases hd
    simp only [Instr.writes, Bool.and_eq_true, beq_iff_eq] at hw
    obtain ⟨rfl, hl⟩ := hw
    rw [exec_rfWrite (of_decide_eq_true hi), State.vxWrite_eq, hl]
  | _ => simp [Instr.writes] at hw

/-- Every well-formed read of line X of unit v, by the unit, a RegisterFile or the bus, is the read of a pair of that
line. -/
theorem exec_of_readsLine {v : Nat} (hi : i.wf s.cfg = true) (hr : i.readsLine s.cfg v X = true) :
    ∃ p, s.cfg.lineAt p = some X ∧ exec i s = .next (s.answer (s.vxRead v p)) := by
  have vr : ∀ (Y : Line) (u : UnitNo) (r : LineOperand), (s.cfg.hasUnit u && r.names s.cfg Y) = true →
      (u.toNat == v && X == Y) = true →
      ∃ p, s.cfg.lineAt p = some X ∧ readLine s Y u r = .next (s.answer (s.vxRead v p)) := by
    intro Y u r hi hr
    simp only [Bool.and_eq_true, beq_iff_eq, Config.hasUnit, decide_eq_true_eq] at hi hr
    obtain ⟨rfl, rfl⟩ := hr
    exact readLine_eq hi.1 hi.2
  cases i with
  | vrDa u r => exact vr .da u r hi hr
  | vrSa u r => exact vr .sa u r hi hr
  | vrCa u r => exact vr .ca u r hi hr
  | vrDs u r => exact vr .ds u r hi hr
  | vrCp u r => exact vr .cp u r hi hr
  | br a => exact exec_br_of_addresses hr
  | rfRead rf b l =>
    simp only [Instr.readsLine, Bool.and_eq_true, beq_iff_eq] at hr
    obtain ⟨rfl, hl⟩ := hr
    exact ⟨_, hl, exec_rfRead (of_decide_eq_true hi)⟩
  | _ => simp [Instr.readsLine] at hr

/-! ### TICK -/

/-- One tick, unit by unit: the fields a foldl of advances keeps. -/
theorem foldl_advance_frame (l : List Nat) (s : State) :
    (l.foldl State.advance s).cfg = s.cfg ∧ (l.foldl State.advance s).diag = s.diag
      ∧ (l.foldl State.advance s).extLog = s.extLog ∧ (l.foldl State.advance s).issued = s.issued
      ∧ (l.foldl State.advance s).draws = s.draws ∧ (l.foldl State.advance s).result = s.result
      ∧ (l.foldl State.advance s).units.length = s.units.length := by
  induction l generalizing s with
  | nil => exact ⟨rfl, rfl, rfl, rfl, rfl, rfl, rfl⟩
  | cons v l ih =>
    obtain ⟨h1, h2, h3, h4, h5, h6, h7⟩ := ih (s.advance v)
    simp only [List.foldl_cons]
    exact ⟨by simp [h1], by simp [h2], by simp [h3], by simp [h4], by simp [h5], by simp [h6], by simp [h7]⟩

/-- A unit the list does not name keeps its state. -/
theorem unit_foldl_advance_of_not_mem (l : List Nat) (s : State) (v : Nat) (h : v ∉ l) :
    (l.foldl State.advance s).unit v = s.unit v := by
  induction l generalizing s with
  | nil => rfl
  | cons w l ih =>
    simp only [List.mem_cons, not_or] at h
    simp only [List.foldl_cons]
    rw [ih _ h.2, State.unit_advance_of_ne _ _ _ h.1]

/-- A unit the list names once advances once. -/
theorem unit_foldl_advance_of_mem (l : List Nat) (s : State) (v : Nat) (hn : l.Nodup) (h : v ∈ l)
    (hv : v < s.units.length) :
    (l.foldl State.advance s).unit v = (s.unit v).advanced (s.cfg.bpbOf v) := by
  induction l generalizing s with
  | nil => simp at h
  | cons w l ih =>
    rw [List.nodup_cons] at hn
    simp only [List.foldl_cons]
    by_cases hw : v = w
    · subst hw
      rw [unit_foldl_advance_of_not_mem l _ v hn.1, State.unit_advance_same s v hv]
    · have hm : v ∈ l := by
        rcases List.mem_cons.mp h with h | h
        · exact absurd h hw
        · exact h
      rw [ih _ hn.2 hm (by simpa using hv), State.unit_advance_of_ne _ _ _ hw, State.advance_cfg]

/-- TICK advances every unit once (R91). -/
theorem State.unit_tick (s : State) (v : Nat) (hv : v < s.cfg.nDrums) (hl : v < s.units.length) :
    s.tick.unit v = (s.unit v).advanced (s.cfg.bpbOf v) :=
  unit_foldl_advance_of_mem _ s v List.nodup_range (List.mem_range.mpr hv) hl

/-- A unit after TICK: advanced once, or no unit. -/
theorem State.unit_tick_cases (s : State) (v : Nat) :
    s.tick.unit v = s.unit v ∨ v < s.cfg.nDrums ∧ s.tick.unit v = (s.unit v).advanced (s.cfg.bpbOf v) := by
  by_cases h : v < s.cfg.nDrums
  · by_cases hl : v < s.units.length
    · exact .inr ⟨h, State.unit_tick s v h hl⟩
    · have hlen := (foldl_advance_frame (List.range s.cfg.nDrums) s).2.2.2.2.2.2
      refine .inl ?_
      unfold State.tick State.unit
      simp [List.getD_eq_getElem?_getD, Nat.le_of_not_lt hl, hlen]
  · exact .inl (unit_foldl_advance_of_not_mem _ s v (by simpa using h))

/-- A unit after an advance: the advanced one, or as before. -/
theorem State.unit_advance_cases (s : State) (v w : Nat) :
    (s.advance v).unit w = s.unit w
      ∨ v = w ∧ v < s.units.length ∧ (s.advance v).unit w = (s.unit w).advanced (s.cfg.bpbOf w) := by
  by_cases h : w = v
  · subst h
    by_cases hl : w < s.units.length
    · exact .inr ⟨rfl, hl, State.unit_advance_same s w hl⟩
    · refine .inl ?_
      unfold State.unit
      simp [Nat.le_of_not_lt hl]
  · exact .inl (State.unit_advance_of_ne s v w h)

/-- A unit after RESET: cleared, or no unit. -/
theorem State.unit_resetUnits_cases (s : State) (v : Nat) :
    s.resetUnits.unit v = s.unit v ∨ s.resetUnits.unit v = (s.unit v).reset := by
  by_cases hl : v < s.units.length
  · exact .inr (State.unit_resetUnits s v hl)
  · refine .inl ?_
    unfold State.unit
    simp [Nat.le_of_not_lt hl]

/-- An advance never takes the mark away (R30). -/
theorem State.advance_refused_of_some (s : State) (v : Nat) (h : s.refused = some .unmodelledTransfer) :
    (s.advance v).refused = some .unmodelledTransfer := by
  rw [State.advance_refused, h]
  split <;> rfl

/-- Nor do several. -/
theorem foldl_advance_refused_of_some (l : List Nat) (s : State) (h : s.refused = some .unmodelledTransfer) :
    (l.foldl State.advance s).refused = some .unmodelledTransfer := by
  induction l generalizing s with
  | nil => exact h
  | cons w l ih => exact ih _ (s.advance_refused_of_some w h)

/-- The mark of a list of advances comes from a unit whose request arrives. -/
theorem foldl_advance_arrived (l : List Nat) (s : State) (hn : l.Nodup) (h0 : s.refused = none)
    (h : (l.foldl State.advance s).refused = some .unmodelledTransfer) :
    ∃ v ∈ l, ∃ p, ((s.unit v).rotate (s.cfg.bpbOf v)).arrived = some p := by
  induction l generalizing s with
  | nil => simp [h0] at h
  | cons w l ih =>
    rw [List.nodup_cons] at hn
    simp only [List.foldl_cons] at h
    cases ha : ((s.unit w).rotate (s.cfg.bpbOf w)).arrived with
    | some p => exact ⟨w, by simp, p, ha⟩
    | none =>
      obtain ⟨v, hv, p, hp⟩ := ih (s.advance w) hn.2 (by rw [State.advance_refused, ha]; simpa using h0) h
      have hne : v ≠ w := fun e => hn.1 (e ▸ hv)
      rw [State.unit_advance_of_ne _ _ _ hne, State.advance_cfg] at hp
      exact ⟨v, by simp [hv], p, hp⟩

/-- A unit of the list whose request arrives sets the mark. -/
theorem foldl_advance_marks (l : List Nat) (s : State) (hn : l.Nodup) (v : Nat) (hv : v ∈ l)
    (ha : (((s.unit v).rotate (s.cfg.bpbOf v)).arrived).isSome = true) :
    (l.foldl State.advance s).refused = some .unmodelledTransfer := by
  induction l generalizing s with
  | nil => simp at hv
  | cons w l ih =>
    rw [List.nodup_cons] at hn
    simp only [List.foldl_cons]
    by_cases hw : v = w
    · subst hw
      exact foldl_advance_refused_of_some l _ (by rw [State.advance_refused, ha]; rfl)
    · have hm : v ∈ l := by
        rcases List.mem_cons.mp hv with h | h
        · exact absurd h hw
        · exact h
      refine ih _ hn.2 hm ?_
      rw [State.unit_advance_of_ne _ _ _ hw, State.advance_cfg]
      exact ha

/-- Two advances of distinct units commute (R92). -/
theorem State.advance_comm (s : State) (v w : Nat) (h : v ≠ w) :
    (s.advance v).advance w = (s.advance w).advance v := by
  have ext : ∀ a b : State, a.cfg = b.cfg → a.units = b.units → a.diag = b.diag → a.refused = b.refused →
      a.extLog = b.extLog → a.result = b.result → a.issued = b.issued → a.draws = b.draws → a = b := by
    intro a b h1 h2 h3 h4 h5 h6 h7 h8
    cases a; cases b
    simp only at h1 h2 h3 h4 h5 h6 h7 h8
    subst h1; subst h2; subst h3; subst h4; subst h5; subst h6; subst h7; subst h8
    rfl
  have hw := State.unit_advance_of_ne s v w (Ne.symm h)
  have hv := State.unit_advance_of_ne s w v h
  apply ext <;> try simp only [State.advance_cfg, State.advance_units, State.advance_diag, State.advance_extLog,
    State.advance_result, State.advance_issued, State.advance_draws, hv, hw]
  · exact List.set_comm _ _ h
  · simp only [State.advance_refused, State.advance_cfg, hv, hw]
    split <;> split <;> simp_all

end Sys2Proof.Machine
end

