-- ==== Sys2Proof/Laws/Encoding.lean ====
section
/-! SUPPORT. The operation record and its 128-bit word carry the same fields (log 3). -/

namespace Sys2Proof

/-- Bit k of a record's word, field by field from the least significant. -/
theorem OpRecord.getLsbD_toWord (r : OpRecord) (k : Nat) :
    r.toWord.getLsbD k =
      if k < 8 then r.opsel.getLsbD k
      else if k < 16 then r.unit.getLsbD (k - 8)
      else if k < 24 then r.line.getLsbD (k - 16)
      else if k < 27 then r.block.getLsbD (k - 24)
      else if k < 28 then r.pairForm.getLsbD (k - 27)
      else if k < 32 then r.spare.getLsbD (k - 28)
      else if k < 64 then r.addr.getLsbD (k - 32)
      else r.data.getLsbD (k - 64) := by
  unfold OpRecord.toWord
  change @BitVec.getLsbD (64 + 32 + 4 + 1 + 3 + 8 + 8 + 8) _ k = _
  rw [BitVec.getLsbD_append, BitVec.getLsbD_append, BitVec.getLsbD_append, BitVec.getLsbD_append,
    BitVec.getLsbD_append, BitVec.getLsbD_append, BitVec.getLsbD_append]
  simp only [Nat.sub_sub, Nat.reduceAdd]
  repeat' split
  all_goals first | rfl | (exfalso; omega)

/-- No field of a record is lost in its word. -/
theorem OpRecord.ofWord_toWord (r : OpRecord) : OpRecord.ofWord r.toWord = r := by
  unfold OpRecord.ofWord
  rcases hr : r with ⟨opsel, unit, line, block, pairForm, spare, addr, data⟩
  congr 1 <;>
  · apply BitVec.eq_of_getLsbD_eq
    intro k hk
    rw [BitVec.getLsbD_extractLsb', OpRecord.getLsbD_toWord]
    simp only [hk, decide_true, Bool.true_and]
    repeat' split
    all_goals first | (exfalso; omega) | simp

/-- No bit of a word is lost in its record. -/
theorem OpRecord.toWord_ofWord (w : OpWord) : (OpRecord.ofWord w).toWord = w := by
  apply BitVec.eq_of_getLsbD_eq
  intro k hk
  rw [OpRecord.getLsbD_toWord]
  simp only [OpRecord.ofWord, BitVec.getLsbD_extractLsb']
  repeat' split
  all_goals
    rw [decide_eq_true (by omega), Bool.true_and]
    congr 1
    omega

/-! ### What a guard of the decoder that answers an instruction says of the record -/

theorem decodeWhen_ok {clear : Bool} {i j : Instr} (h : decodeWhen clear i = .ok j) : clear = true ∧ i = j := by
  unfold decodeWhen at h
  split at h
  · rw [Except.ok.injEq] at h
    exact ⟨‹_›, h⟩
  · simp at h

theorem OpRecord.withUnit_ok {r : OpRecord} {clear : Bool} {f : UnitNo → Instr} {j : Instr}
    (h : r.withUnit clear f = .ok j) : clear = true ∧ ∃ u : UnitNo, r.unit = u.setWidth 8 ∧ f u = j := by
  unfold OpRecord.withUnit OpRecord.unitNo at h
  split at h
  · simp at h
  · next u hu =>
    obtain ⟨hc, hj⟩ := decodeWhen_ok h
    refine ⟨hc, u, ?_, hj⟩
    split at hu
    · rw [Option.some.injEq] at hu
      subst hu
      apply BitVec.eq_of_toNat_eq
      simp only [BitVec.toNat_setWidth]
      omega
    · simp at hu

theorem OpRecord.withLine_ok {r : OpRecord} {clear : Bool} {f : UnitNo → LineOperand → Instr} {j : Instr}
    (h : r.withLine clear f = .ok j) :
    clear = true ∧ ∃ (u : UnitNo) (a : LineOperand), r.unit = u.setWidth 8 ∧ f u a = j ∧ r.spare = 0
      ∧ (a = .named ∧ r.pairForm = 0 ∧ r.line = 0 ∧ r.block = 0 ∨ a = .pair r.block r.line ∧ r.pairForm = 1) := by
  unfold OpRecord.withLine at h
  split at h
  · next h0 =>
    obtain ⟨hc, u, hu, hj⟩ := OpRecord.withUnit_ok h
    simp [OpRecord.noPair] at hc
    exact ⟨hc.1.1, u, .named, hu, hj, hc.2, .inl ⟨rfl, h0, hc.1.2.1, hc.1.2.2⟩⟩
  · next h0 =>
    obtain ⟨hc, u, hu, hj⟩ := OpRecord.withUnit_ok h
    simp at hc
    refine ⟨hc.1, u, _, hu, hj, hc.2, .inr ⟨rfl, ?_⟩⟩
    have hlt := r.pairForm.isLt
    have hne : r.pairForm.toNat ≠ 0 := fun hz => h0 (BitVec.eq_of_toNat_eq hz)
    apply BitVec.eq_of_toNat_eq
    simp
    omega

/-- The selector of a record is the low byte of its word (R52). -/
theorem OpRecord.opsel_toWord (r : OpRecord) : r.toWord.extractLsb' 0 8 = r.opsel :=
  congrArg OpRecord.opsel (OpRecord.ofWord_toWord r)

end Sys2Proof
end

