-- ==== Sys2Proof/Laws/Invariant.lean ====
section
/-! SUPPORT. What a well-formed configuration and the invariant say of the units, and the current-positions view under
them (R24, R49). -/

namespace Sys2Proof

/-! ### A well-formed configuration (R67) -/

theorem Config.sizes_of_wf {c : Config} (h : c.wf = true) :
    1 ≤ c.nDrums ∧ c.nDrums ≤ 4 ∧ ∀ u, u < c.nDrums → 1 ≤ c.bpbOf u ∧ c.bpbOf u ≤ 64 := by
  have hs : c.sizesOk = true := by
    simp only [Config.wf, Bool.and_eq_true] at h
    exact h.1.2
  simp only [Config.sizesOk, Bool.and_eq_true, decide_eq_true_eq, List.all_eq_true] at hs
  refine ⟨hs.1.1, hs.1.2, fun u hu => ?_⟩
  have hm : c.bpbOf u ∈ c.bpb := by
    unfold Config.bpbOf Config.nDrums at *
    simp [hu]
  exact hs.2 _ hm

/-- Check 7: a routed drum unit exists. -/
theorem Config.route_lt_of_wf {c : Config} (h : c.wf = true) {id : BitVec 4} {u : Nat}
    (hr : c.routeOf id = .drum u) : u < c.nDrums := by
  have hs : c.routeOk = true := by
    simp only [Config.wf, Bool.and_eq_true] at h
    exact h.1.1.2
  simp only [Config.routeOk, Bool.and_eq_true, List.all_eq_true, decide_eq_true_eq] at hs
  have hid : id.toNat < c.route.length := by
    have := id.isLt
    omega
  have hm : Handler.drum u ∈ c.route := by
    rw [← hr]
    unfold Config.routeOf
    simp [hid]
  simpa [Handler.namesUnitBelow] using hs.2 _ hm

/-- Check 6: every line has a pair, and DRUM_LINE_MAP gives that pair the line. -/
theorem Config.names_of_wf {c : Config} (h : c.wf = true) (X : Line) : LineOperand.named.names c X = true := by
  have hs : c.lineMapOk = true := by
    simp only [Config.wf, Bool.and_eq_true] at h
    exact h.1.1.1.2
  simp only [Config.lineMapOk, Bool.and_eq_true, decide_eq_true_eq, List.all_eq_true] at hs
  have hX : X ∈ c.lineMap.map (·.2) := by
    have := hs.2 X (by cases X <;> simp [Line.all])
    simpa using this
  obtain ⟨⟨a, Y⟩, hp, hY⟩ := List.mem_map.mp hX
  simp only at hY
  have hf : ∃ q, c.lineMap.find? (fun p => p.2 == X) = some q := by
    rw [← Option.isSome_iff_exists, List.find?_isSome]
    exact ⟨⟨a, Y⟩, hp, by simp [hY]⟩
  obtain ⟨q, hq⟩ := hf
  have hqm := List.mem_of_find?_eq_some hq
  have hqX : q.2 = X := by
    have := List.find?_some hq
    simpa using this
  have ha : c.lineAt q.1 = some X := by
    unfold Config.lineAt
    have hg : ∃ q', c.lineMap.find? (fun p => p.1 == q.1) = some q' := by
      rw [← Option.isSome_iff_exists, List.find?_isSome]
      exact ⟨q, hqm, by simp⟩
    obtain ⟨q', hq'⟩ := hg
    have hq'1 : q'.1 = q.1 := by
      have := List.find?_some hq'
      simpa using this
    have he : q' = q := by
      have hinj := List.inj_on_of_nodup_map hs.1.1
      exact hinj (List.mem_of_find?_eq_some hq') hqm hq'1
    rw [hq', he]
    exact congrArg some hqX
  simp [LineOperand.names, LineOperand.locate, LineOperand.addr, Config.addrOf, hq, ha]

namespace Machine

variable {s : State} {u : Nat}

/-! ### The units under the invariant -/

theorem State.Inv.lt_length (h : s.Inv) (hu : u < s.cfg.nDrums) : u < s.units.length := h.2.1.symm ▸ hu

/-- A position fits its 6-bit field (R49). -/
theorem State.Inv.pos_lt (h : s.Inv) (hu : u < s.cfg.nDrums) : (s.unit u).pos < 64 := by
  have h1 := h.2.2.1 u hu
  have h2 := (Config.sizes_of_wf h.1).2.2 u hu
  omega

/-! ### The current-positions view -/

theorem getLsbD_positionField (v pos k : Nat) :
    (positionField v pos).getLsbD k
      = (decide (k < 64) && decide (6 * v ≤ k) && decide (k < 6 * v + 6) && pos.testBit (k - 6 * v)) := by
  unfold positionField
  rw [BitVec.getLsbD_shiftLeft, BitVec.getLsbD_setWidth, BitVec.getLsbD_ofNat]
  by_cases h1 : 6 * v ≤ k
  · by_cases h2 : k < 6 * v + 6
    · have h3 : k - 6 * v < 6 := by omega
      have h4 : k - 6 * v < 64 := by omega
      simp [h1, h2, h3, h4, Nat.not_lt.mpr h1]
    · have h3 : ¬ k - 6 * v < 6 := by omega
      simp [h2, h3]
  · have h3 : k < 6 * v := by omega
    simp [h1, h3]

/-- Bit k of the packed view is bit k mod 6 of the position of unit k / 6 (R24, R49). -/
theorem getLsbD_packedPositions (k : Nat) : ∀ (l : List DrumUnit) (v : Nat), 6 * (v + l.length) ≤ 64 →
    (packedPositions v l).getLsbD k
      = (decide (6 * v ≤ k) && decide (k < 6 * (v + l.length))
          && (l.getD (k / 6 - v) DrumUnit.created).pos.testBit (k % 6))
  | [], v, _ => by
    simp [packedPositions]
  | d :: l, v, hl => by
    have ih := getLsbD_packedPositions k l (v + 1) (by simp only [List.length_cons] at hl; omega)
    unfold packedPositions
    rw [BitVec.getLsbD_or, ih, getLsbD_positionField]
    simp only [List.length_cons] at hl ⊢
    by_cases h1 : 6 * v ≤ k
    · by_cases h2 : k < 6 * v + 6
      · have e1 : k / 6 = v := by omega
        have e2 : k % 6 = k - 6 * v := by omega
        have e3 : ¬ 6 * (v + 1) ≤ k := by omega
        have e4 : k < 64 := by omega
        have e5 : k < 6 * (v + (l.length + 1)) := by omega
        simp [*]
      · have e3 : 6 * (v + 1) ≤ k := by omega
        have e4 : k / 6 - v = (k / 6 - (v + 1)) + 1 := by omega
        have e5 : v + 1 + l.length = v + (l.length + 1) := by omega
        rw [e4]
        simp only [List.getD_cons_succ, e5]
        simp [*]
    · have e3 : ¬ 6 * (v + 1) ≤ k := by omega
      simp [*]

/-- The view fits the 24 bits of CP (R24), so the cut of the read changes nothing. -/
theorem State.Inv.cpValue_cut (h : s.Inv) (hu : u < s.cfg.nDrums) :
    ((s.cpValue u).setWidth 24).setWidth 64 = s.cpValue u := by
  have h4 := (Config.sizes_of_wf h.1).2.1
  have hlen := h.2.1
  have hz : ∀ k, 24 ≤ k → (s.cpValue u).getLsbD k = false := by
    intro k hk
    unfold State.cpValue
    split
    · rw [getLsbD_packedPositions k s.units 0 (by omega)]
      have hn : ¬ k < 6 * (0 + s.units.length) := by omega
      rw [decide_eq_false hn]
      simp
    · rw [getLsbD_positionField]
      have hn : ¬ k < 6 * u + 6 := by omega
      simp [hn]
  apply BitVec.eq_of_getLsbD_eq
  intro k hk
  simp only [BitVec.getLsbD_setWidth, hk]
  by_cases hlt : k < 24
  · simp [hlt]
  · simp [hlt, hz k (by omega)]

end Machine

end Sys2Proof
end

