-- ==== Sys2Proof/Laws/PerInstr.lean ====
section
/-! SUPPORT. Facts proved for every instruction, one lemma a constructor: the record round trip. -/

namespace Sys2Proof.Laws.RecordRoundTrip

/-- The decoder on fields gives back the instruction the encoder wrote (R52, R53). -/
def Statement (i : Instr) : Prop := decodeRecord (encodeRecord i) = .ok i

/-- A unit operand survives its 8-bit field. -/
theorem unitNo_setWidth (r : OpRecord) (u : UnitNo) (h : r.unit = u.setWidth 8) : r.unitNo = some u := by
  have h4 : (u.setWidth 8).toNat < 4 := by
    rw [BitVec.toNat_setWidth]
    exact Nat.lt_of_le_of_lt (Nat.mod_le _ _) u.isLt
  have hu : (u.setWidth 8).setWidth 2 = u := by
    apply BitVec.eq_of_toNat_eq
    simp only [BitVec.toNat_setWidth]
    omega
  unfold OpRecord.unitNo
  rw [h, if_pos h4, hu]

/-- An operation with the operand `u`. -/
theorem withUnit_ok (r : OpRecord) (u : UnitNo) (clear : Bool) (f : UnitNo → Instr) (h : r.unit = u.setWidth 8)
    (hc : clear = true) : r.withUnit clear f = .ok (f u) := by
  unfold OpRecord.withUnit decodeWhen
  rw [unitNo_setWidth r u h, hc]
  rfl

theorem br (a : RealAddr) : Statement (.br a) := rfl
theorem bw (a : RealAddr) (d : Data) : Statement (.bw a d) := rfl
theorem vrDa (u : UnitNo) (r : LineOperand) : Statement (.vrDa u r) := by
  cases r <;> exact withUnit_ok _ u _ _ rfl rfl
theorem vrSa (u : UnitNo) (r : LineOperand) : Statement (.vrSa u r) := by
  cases r <;> exact withUnit_ok _ u _ _ rfl rfl
theorem vrCa (u : UnitNo) (r : LineOperand) : Statement (.vrCa u r) := by
  cases r <;> exact withUnit_ok _ u _ _ rfl rfl
theorem vrDs (u : UnitNo) (r : LineOperand) : Statement (.vrDs u r) := by
  cases r <;> exact withUnit_ok _ u _ _ rfl rfl
theorem vrCp (u : UnitNo) (r : LineOperand) : Statement (.vrCp u r) := by
  cases r <;> exact withUnit_ok _ u _ _ rfl rfl
theorem vrNone (u : UnitNo) (r : LineOperand) : Statement (.vrNone u r) := by
  cases r <;> exact withUnit_ok _ u _ _ rfl rfl
theorem vwDa (u : UnitNo) (r : LineOperand) (d : Data) : Statement (.vwDa u r d) := by
  cases r <;> exact withUnit_ok _ u _ _ rfl rfl
theorem vwSa (u : UnitNo) (r : LineOperand) (d : Data) : Statement (.vwSa u r d) := by
  cases r <;> exact withUnit_ok _ u _ _ rfl rfl
theorem vwCa (u : UnitNo) (r : LineOperand) (d : Data) : Statement (.vwCa u r d) := by
  cases r <;> exact withUnit_ok _ u _ _ rfl rfl
theorem vwDs (u : UnitNo) (r : LineOperand) (d : Data) : Statement (.vwDs u r d) := by
  cases r <;> exact withUnit_ok _ u _ _ rfl rfl
theorem vwCp (u : UnitNo) (r : LineOperand) (d : Data) : Statement (.vwCp u r d) := by
  cases r <;> exact withUnit_ok _ u _ _ rfl rfl
theorem vwNone (u : UnitNo) (r : LineOperand) (d : Data) : Statement (.vwNone u r d) := by
  cases r <;> exact withUnit_ok _ u _ _ rfl rfl
theorem tick : Statement .tick := rfl
theorem adv (u : UnitNo) : Statement (.adv u) := withUnit_ok _ u _ _ rfl rfl
theorem reset : Statement .reset := rfl
theorem attach (u : UnitNo) : Statement (.attach u) := withUnit_ok _ u _ _ rfl rfl
theorem detach (u : UnitNo) : Statement (.detach u) := withUnit_ok _ u _ _ rfl rfl
theorem depDa (u : UnitNo) (v : Data) : Statement (.depDa u v) := withUnit_ok _ u _ _ rfl rfl
theorem depSa (u : UnitNo) (v : Data) : Statement (.depSa u v) := withUnit_ok _ u _ _ rfl rfl
theorem depCa (u : UnitNo) (v : Data) : Statement (.depCa u v) := withUnit_ok _ u _ _ rfl rfl
theorem depDs (u : UnitNo) (v : Data) : Statement (.depDs u v) := withUnit_ok _ u _ _ rfl rfl
theorem examDa (u : UnitNo) : Statement (.examDa u) := withUnit_ok _ u _ _ rfl rfl
theorem examSa (u : UnitNo) : Statement (.examSa u) := withUnit_ok _ u _ _ rfl rfl
theorem examCa (u : UnitNo) : Statement (.examCa u) := withUnit_ok _ u _ _ rfl rfl
theorem examDs (u : UnitNo) : Statement (.examDs u) := withUnit_ok _ u _ _ rfl rfl
theorem examCp (u : UnitNo) : Statement (.examCp u) := withUnit_ok _ u _ _ rfl rfl
theorem rfRead (rf : BitVec 8) (b : BitVec 3) (l : BitVec 8) : Statement (.rfRead rf b l) := rfl
theorem rfWrite (rf : BitVec 8) (b : BitVec 3) (l : BitVec 8) (d : Data) : Statement (.rfWrite rf b l d) := rfl

end Sys2Proof.Laws.RecordRoundTrip
end

