-- ==== Sys2Proof/Laws/Tables.lean ====
section
/-! SUPPORT. The configuration's plain data reaches every function the parameter may be (log 12, 13): any total
VX_RESOLVE is some list of rows. -/

namespace Sys2Proof

/-- The row that takes one offset alone. -/
def ResolveRow.only (off : Offset) (a : VxAddr) : ResolveRow := ⟨BitVec.allOnes 24, off, .fixed a⟩

theorem ResolveRow.only_takes (off o : Offset) (a : VxAddr) : (ResolveRow.only off a).takes o = (o == off) := by
  unfold ResolveRow.takes ResolveRow.only
  rw [BitVec.and_allOnes]

/-- Rows that each take one offset answer with the function they were made from. -/
theorem find_only (f : Offset → Option VxAddr) (off : Offset) : ∀ l : List Offset, off ∈ l →
    ((l.filterMap fun o => (f o).map (ResolveRow.only o)).find? (fun r => r.takes off)).map (fun r => r.target.at off)
      = f off
  | [], h => by simp at h
  | o :: l, h => by
    by_cases ho : o = off
    · subst ho
      cases hf : f o with
      | none =>
        by_cases hm : o ∈ l
        · have := find_only f o l hm
          simpa [hf] using this
        · suffices h0 : (l.filterMap fun o' => (f o').map (ResolveRow.only o')).find? (fun r => r.takes o) = none by
            simp [hf, h0]
          rw [List.find?_eq_none]
          intro r hr
          obtain ⟨o', ho', hr'⟩ := List.mem_filterMap.mp hr
          obtain ⟨a, _, rfl⟩ := Option.map_eq_some_iff.mp hr'
          rw [ResolveRow.only_takes]
          simp only [beq_iff_eq]
          intro he
          exact hm (he ▸ ho')
      | some a =>
        have ht : (ResolveRow.only o a).takes o = true := by rw [ResolveRow.only_takes]; simp
        rw [List.filterMap_cons]
        simp only [hf, Option.map_some, List.find?_cons, ht]
        rfl
    · have hm : off ∈ l := by
        rcases List.mem_cons.mp h with h | h
        · exact absurd h.symm ho
        · exact h
      have := find_only f off l hm
      cases hf : f o with
      | none => simpa [hf] using this
      | some a =>
        have hne : (off == o) = false := by simp; exact fun he => ho he.symm
        simpa [hf, ResolveRow.only_takes, List.find?_cons, hne] using this

/-- The words of a width can be listed. -/
theorem exists_list_of_all (w : Nat) : ∃ l : List (BitVec w), ∀ o, o ∈ l :=
  ⟨(List.range (2 ^ w)).map (BitVec.ofNat w), fun o =>
    List.mem_map.mpr ⟨o.toNat, List.mem_range.mpr o.isLt, by simp⟩⟩

/-- Every total function from offsets to none or a line address is the `VX_RESOLVE` of some rows. -/
theorem exists_rows (f : Offset → Option VxAddr) (c : Config) :
    ∃ rows, ∀ off, ({ c with resolve := rows } : Config).resolveOffset off = f off := by
  obtain ⟨l, hl⟩ := exists_list_of_all 24
  refine ⟨l.filterMap fun o => (f o).map (ResolveRow.only o), fun off => ?_⟩
  rw [← find_only f off l (hl off)]
  unfold Config.resolveOffset
  generalize List.find? _ _ = q
  cases q <;> rfl

end Sys2Proof
end

