-- ==== Sys2Proof/Tests/Slice0.lean ====
section
/-! SUPPORT. Tests on fixed values, each expected result from the vector or the rule of spec/ its comment names, and a
witness for the hypotheses of each statement that has some. -/

namespace Sys2Proof.Tests

open Sys2Proof Sys2Proof.Machine

/-! ### Helpers -/

/-- A machine under RC with two units. -/
def machine (u0 u1 : DrumUnit) : State := { State.reset with units := [u0, u1] }

/-- A fresh unit with a medium. -/
def attached : DrumUnit := { DrumUnit.created with attached := true }

/-- A fresh unit at a position. -/
def atPos (p : Nat) : DrumUnit := { DrumUnit.created with pos := p }

/-- The request V-DU-2 makes. -/
def request : Request := ⟨true, 0, 1, 5, 3⟩

/-- An attached unit at position `p` with that request pending. -/
def waiting (p : Nat) : DrumUnit := { attached with pos := p, req := .pending request }

/-- The outcome is a next state of which `p` holds. -/
def ends (r : Result) (p : State → Bool) : Bool :=
  match r with
  | .next t => p t
  | .fault _ => false
  | .refused _ => false

/-- One operation ends in a next state of which `p` holds. -/
def after (i : Instr) (s : State) (p : State → Bool) : Bool := ends (exec i s) p

/-- One operation ends in the state it started from, returning `v`. -/
def returns (i : Instr) (s : State) (v : Data) : Bool := after i s fun t => t == { s with result := some v }

/-! ### WellFormed: the nine checks of R67, an ill-formed term for each -/

theorem test_rc_is_well_formed : Config.rc.wf = true := by decide

/-- Check 1: width 0, width 65, a mask wider than the line. -/
theorem test_check1_width : ({ Config.rc.lineDesc .sa with width := 0 } : LineDesc).widthOk = false
    ∧ ({ Config.rc.lineDesc .sa with width := 65 } : LineDesc).widthOk = false
    ∧ ({ Config.rc.lineDesc .sa with width := 27 } : LineDesc).widthOk = false := by decide

/-- Check 2: fixed bits wider than the line, fixed bits inside the mask. -/
theorem test_check2_fixed_bits : ({ Config.rc.lineDesc .da with kind := .repack 0x100000000#64 } : LineDesc).fixedOk = false
    ∧ ({ Config.rc.lineDesc .da with kind := .repack 0x40000000#64 } : LineDesc).fixedOk = false := by decide

/-- Check 3: one bit for both flags, a read-only bit, a bit of the unit field. -/
theorem test_check3_flag_bits : ({ Config.rc with decodeBit := 6 } : Config).wf = false
    ∧ ({ Config.rc with decodeBit := 10 } : Config).wf = false
    ∧ ({ Config.rc with illegalRequestBit := 3 } : Config).wf = false := by decide

/-- Check 4: a COMPUTED line with a mask, with another kind, with an on_write. -/
theorem test_check4_computed : ({ Config.rc.lineDesc .cp with writeMask := 1 } : LineDesc).computedOk = false
    ∧ ({ Config.rc.lineDesc .cp with kind := .w1c } : LineDesc).computedOk = false
    ∧ ({ Config.rc.lineDesc .cp with onWrite := some .validateRequest } : LineDesc).computedOk = false := by decide

/-- Check 5: validation, which writes DS, on DS itself. -/
theorem test_check5_on_write : ({ Config.rc.lineDesc .ds with onWrite := some .validateRequest } : LineDesc).onWriteOk .ds = false := by
  decide

/-- Check 6: a line at two pairs, a pair with two lines, a line left out. -/
theorem test_check6_line_map : ({ Config.rc with lineMap := (⟨1, 0⟩, .da) :: Config.rc.lineMap } : Config).wf = false
    ∧ ({ Config.rc with lineMap := [(⟨0, 0⟩, .da), (⟨0, 0⟩, .sa), (⟨0, 2⟩, .ca), (⟨0, 3⟩, .ds), (⟨0, 4⟩, .cp)] } : Config).wf = false
    ∧ ({ Config.rc with lineMap := Config.rc.lineMap.drop 1 } : Config).wf = false := by decide

/-- Check 7: a unit routed twice, a unit left out, a unit at N_DRUMS. -/
theorem test_check7_route : ({ Config.rc with route := Config.rc.route.set 3 (.drum 0) } : Config).wf = false
    ∧ ({ Config.rc with route := Config.rc.route.set 2 .unrouted } : Config).wf = false
    ∧ ({ Config.rc with route := Config.rc.route.set 3 (.drum 2) } : Config).wf = false := by decide

/-- Check 8: no unit, five units, no block, 65 blocks. -/
theorem test_check8_sizes : ({ Config.rc with bpb := [] } : Config).sizesOk = false
    ∧ ({ Config.rc with bpb := [32, 32, 32, 32, 32] } : Config).sizesOk = false
    ∧ ({ Config.rc with bpb := [32, 0] } : Config).sizesOk = false
    ∧ ({ Config.rc with bpb := [65, 32] } : Config).sizesOk = false := by decide

/-- Check 9: bit 31 in the mask, a bit the regression literal sets left out, one it clears put in. -/
theorem test_check9_disc_mask : ({ Config.rc with discAddressMask := 0xC03FFF3F#32 } : Config).wf = false
    ∧ ({ Config.rc with discAddressMask := 0x403FFF1F#32 } : Config).wf = false
    ∧ ({ Config.rc with discAddressMask := 0x403FFFBF#32 } : Config).wf = false := by decide

/-- Operations outside the closed set of R52 and R53: the unit, the pair, the RegisterFile. -/
theorem test_ill_formed_operations : (Instr.adv 2).wf Config.rc = false
    ∧ (Instr.vrDa 0 (.pair 0 1)).wf Config.rc = false
    ∧ (Instr.vwNone 0 (.pair 0 4) 7).wf Config.rc = false
    ∧ (Instr.rfRead 2 0 0).wf Config.rc = false := by decide

/-! ### Decoding: the word of every selector of R52, written out (operand places: log 3) -/

theorem test_decode_bus :
    decode 0x00000000_00000000_0F800000_00000010#128 = .ok (.br 0x0F800000#32)
    ∧ decode 0x00000000_00012340_01800001_00000011#128 = .ok (.bw 0x01800001#32 0x12340#64) := ⟨rfl, rfl⟩

theorem test_decode_vr :
    decode 0x00000000_00000000_00000000_00000320#128 = .ok (.vrDa 3 .named)
    ∧ decode 0x00000000_00000000_00000000_08010121#128 = .ok (.vrSa 1 (.pair 0 1))
    ∧ decode 0x00000000_00000000_00000000_0FFF0222#128 = .ok (.vrCa 2 (.pair 7 0xFF))
    ∧ decode 0x00000000_00000000_00000000_08030023#128 = .ok (.vrDs 0 (.pair 0 3))
    ∧ decode 0x00000000_00000000_00000000_00000124#128 = .ok (.vrCp 1 .named)
    ∧ decode 0x00000000_00000000_00000000_0900002F#128 = .ok (.vrNone 0 (.pair 1 0)) := ⟨rfl, rfl, rfl, rfl, rfl, rfl⟩

theorem test_decode_vw :
    decode 0xFFFFFFFF_A5A5A5A5_00000000_00000030#128 = .ok (.vwDa 0 .named 0xFFFFFFFFA5A5A5A5#64)
    ∧ decode 0xFFFFFFFF_FFFFFFFF_00000000_08010031#128 = .ok (.vwSa 0 (.pair 0 1) 0xFFFFFFFFFFFFFFFF#64)
    ∧ decode 0x12345678_9ABCDEF0_00000000_00000132#128 = .ok (.vwCa 1 .named 0x123456789ABCDEF0#64)
    ∧ decode 0x00000000_00000040_00000000_08030333#128 = .ok (.vwDs 3 (.pair 0 3) 0x40#64)
    ∧ decode 0x00000000_00FFFFFF_00000000_00000034#128 = .ok (.vwCp 0 .named 0xFFFFFF#64)
    ∧ decode 0x80000000_00000007_00000000_0805023F#128 = .ok (.vwNone 2 (.pair 0 5) 0x8000000000000007#64) :=
  ⟨rfl, rfl, rfl, rfl, rfl, rfl⟩

theorem test_decode_driver_and_host :
    decode 0x00000000_00000000_00000000_00000040#128 = .ok .tick
    ∧ decode 0x00000000_00000000_00000000_00000341#128 = .ok (.adv 3)
    ∧ decode 0x00000000_00000000_00000000_00000050#128 = .ok .reset
    ∧ decode 0x00000000_00000000_00000000_00000151#128 = .ok (.attach 1)
    ∧ decode 0x00000000_00000000_00000000_00000252#128 = .ok (.detach 2) := ⟨rfl, rfl, rfl, rfl, rfl⟩

theorem test_decode_deposit :
    decode 0x00000000_00000503_00000000_00000060#128 = .ok (.depDa 0 0x503#64)
    ∧ decode 0x00000000_0FFFFFFF_00000000_00000161#128 = .ok (.depSa 1 0x0FFFFFFF#64)
    ∧ decode 0xFFFFFFFF_FFFFFFFF_00000000_00000262#128 = .ok (.depCa 2 0xFFFFFFFFFFFFFFFF#64)
    ∧ decode 0x00000000_00A5A5A5_00000000_00000363#128 = .ok (.depDs 3 0xA5A5A5#64) := ⟨rfl, rfl, rfl, rfl⟩

theorem test_decode_examine :
    decode 0x00000000_00000000_00000000_00000070#128 = .ok (.examDa 0)
    ∧ decode 0x00000000_00000000_00000000_00000171#128 = .ok (.examSa 1)
    ∧ decode 0x00000000_00000000_00000000_00000272#128 = .ok (.examCa 2)
    ∧ decode 0x00000000_00000000_00000000_00000373#128 = .ok (.examDs 3)
    ∧ decode 0x00000000_00000000_00000000_00000074#128 = .ok (.examCp 0) := ⟨rfl, rfl, rfl, rfl, rfl⟩

theorem test_decode_register_file :
    decode 0x00000000_00000000_00000000_07FFFF80#128 = .ok (.rfRead 0xFF 7 0xFF)
    ∧ decode 0x00001000_00001F01_00000000_01020381#128 = .ok (.rfWrite 3 1 2 0x100000001F01#64) := ⟨rfl, rfl⟩

/-- R53: SUB 5 of VR, DEP.CP, EXAM SUB 5, an unused class; an operand u of 4; a stray operand bit. -/
theorem test_decode_refuses :
    decode 0x25#128 = .error .noSuchSelector ∧ decode 0x64#128 = .error .noSuchSelector
    ∧ decode 0x75#128 = .error .noSuchSelector ∧ decode 0x90#128 = .error .noSuchSelector
    ∧ decode 0x441#128 = .error .unitOutOfRange ∧ decode 0x10040#128 = .error .strayOperandBits := ⟨rfl, rfl, rfl, rfl, rfl, rfl⟩

/-- The 30 selectors of R52. -/
def selectors : List Nat :=
  [0x10, 0x11, 0x20, 0x21, 0x22, 0x23, 0x24, 0x2F, 0x30, 0x31, 0x32, 0x33, 0x34, 0x3F, 0x40] ++
  [0x41, 0x50, 0x51, 0x52, 0x60, 0x61, 0x62, 0x63, 0x70, 0x71, 0x72, 0x73, 0x74, 0x80, 0x81]

/-- Every selector, with operands of zeros, runs as the first operation after reset. -/
theorem test_every_selector_runs_from_reset :
    selectors.all (fun w => (decodeTableWord 8 w).isSome && ends (step (State.reset.withFetchWord 8 w)) fun _ => true) = true := by
  decide

/-- R46: the real addresses of unit 0's and unit 1's lines under RC. -/
theorem test_rc_addresses : Config.rc.addresses 0x01800000 0 .da = true ∧ Config.rc.addresses 0x01800003 0 .ds = true
    ∧ Config.rc.addresses 0x02800004 1 .cp = true ∧ Config.rc.addresses 0x01801000 0 .da = false
    ∧ Config.rc.addresses 0x01000000 0 .da = false := by decide

/-! ### One step of each operation (spec/95_test_vectors.md) -/

/-- V-BUS-2. -/
theorem test_br_unrouted : after (.br 0x0F800000) State.reset
    (fun t => t.result == some 0 && t.diag == [⟨.read, 0x0F800000, none⟩]) = true := by decide
/-- V-BUS-12. -/
theorem test_br_positions : returns (.br 0x02800004) (machine (atPos 5) (atPos 17)) 0x445 = true := by decide
/-- V-BUS-8. -/
theorem test_bw_ignores_top_bits : after (.bw 0xF1800001 0xFFFFFFFFFFFFFFFF) State.reset
    (fun t => (t.unit 0).sa == 0x0FFFFFFF && t.diag == []) = true := by decide
/-- V-BUS-10. -/
theorem test_bw_external : after (.bw 0x00000010 0x1234) State.reset
    (fun t => t.extLog == [⟨0, 0x000010, 0x1234⟩]) = true := by decide

/-- V-DU-1. -/
theorem test_vr_da : returns (.vrDa 0 .named) State.reset 0x80000000 = true := by decide
/-- L1-4. -/
theorem test_vr_sa : returns (.vrSa 0 (.pair 0 1)) (machine { attached with sa := 0x0FFFFFFF } attached) 0x0FFFFFFF = true := by decide
/-- V-DU-7. -/
theorem test_vr_ca : returns (.vrCa 1 .named) (machine attached { attached with ca := 0x0ABCDEF0 }) 0x0ABCDEF0 = true := by decide
/-- L1-5. -/
theorem test_vr_ds : returns (.vrDs 0 .named) (machine { attached with ds := 0x00A5A5A5 } attached) 0x00A5A5A0 = true := by decide
/-- V-DU-13. -/
theorem test_vr_cp_packed : returns (.vrCp 0 .named) (machine (atPos 31) (atPos 31)) 0x7DF = true := by decide
/-- V-DU-14. -/
theorem test_vr_cp_own_field : returns (.vrCp 1 .named)
    { machine (atPos 5) (atPos 17) with cfg := { Config.rc with curposView := .ownField } } 0x440 = true := by decide
/-- V-DU-16. -/
theorem test_vr_none : returns (.vrNone 0 (.pair 1 0)) State.reset 0 = true := by decide

/-- V-DU-2. -/
theorem test_vw_da_legal : after (.vwDa 0 .named 0x40004503) (machine attached attached)
    (fun t => (t.unit 0).da == 0xC0004503 && (t.unit 0).req == .pending request && (t.unit 0).ds == 0) = true := by decide
/-- V-VAL-7, with DS = 0x00010000 before (2.4). -/
theorem test_vw_da_illegal_block : after (.vwDa 0 .named 0x2001) (machine { waiting 0 with ds := 0x00010000 } attached)
    (fun t => (t.unit 0).ds == 0x000100C0 && (t.unit 0).req == .noRequest && (t.unit 1) == attached) = true := by decide
/-- V-DU-8. -/
theorem test_vw_sa : after (.vwSa 0 .named 0x12340) (machine { waiting 0 with ds := 0xC0 } attached)
    (fun t => t.unit 0 == { waiting 0 with ds := 0xC0, sa := 0x12340 }) = true := by decide
/-- V-DU-7. -/
theorem test_vw_ca : after (.vwCa 1 .named 0x123456789ABCDEF0) State.reset
    (fun t => t.unit 1 == { DrumUnit.created with ca := 0x0ABCDEF0 }) = true := by decide
/-- V-DU-10. -/
theorem test_vw_ds_one_flag : after (.vwDs 0 .named 0x40) (machine { waiting 0 with ds := 0xC0 } attached)
    (fun t => t.unit 0 == { waiting 0 with ds := 0x80 }) = true := by decide
/-- L1-6. -/
theorem test_vw_ds_read_only_bits : after (.vwDs 0 .named 0xFFFFFFFF) (machine { attached with ds := 0xFFFFFFFF } attached)
    (fun t => (t.unit 0).ds == 0x80002430) = true := by decide
/-- V-DU-15. -/
theorem test_vw_cp : after (.vwCp 0 .named 0xFFFFFF) (machine (atPos 5) (atPos 17))
    (fun t => t == machine (atPos 5) (atPos 17)) = true := by decide
/-- R89. -/
theorem test_vw_none : after (.vwNone 0 (.pair 0 5) 7) State.reset (fun t => t == State.reset) = true := by decide

/-- V-ROT-3. -/
theorem test_tick : after .tick (machine (atPos 31) (atPos 31)) (fun t => (t.unit 0).pos == 0 && (t.unit 1).pos == 0) = true := by decide
/-- V-ROT-6, the last advance. -/
theorem test_adv_starts : after (.adv 0) (machine (waiting 4) attached)
    (fun t => t.unit 0 == { waiting 5 with req := .inTransfer request } && t.refused == some .unmodelledTransfer
      && t.unit 1 == attached) = true := by decide
/-- R90: BPB = 1 keeps position 0 (V-ROT-10). -/
theorem test_adv_one_block : after (.adv 0) { machine attached attached with cfg := { Config.rc with bpb := [1, 32] } }
    (fun t => (t.unit 0).pos == 0) = true := by decide
/-- V-RST-1. -/
theorem test_reset : after .reset
    { machine { waiting 3 with da := 0xC0004503, sa := 0x12340, ds := 0xC0 } (atPos 3) with diag := [⟨.read, 0x0F800000, none⟩] }
    (fun t => t.units == [attached, DrumUnit.created] && t.diag.length == 1) = true := by decide
/-- V-RST-2. -/
theorem test_reset_keeps_the_mark : after .reset { State.reset with refused := some .unmodelledTransfer }
    (fun t => t.refused == some .unmodelledTransfer) = true := by decide
/-- V-ATT-1. -/
theorem test_attach : after (.attach 0) (machine { DrumUnit.created with da := 0x80000503, ds := 0xC0 } attached)
    (fun t => t.unit 0 == { attached with da := 0x80000503, ds := 0xC0 }) = true := by decide
/-- V-ATT-2. -/
theorem test_detach : after (.detach 0) (machine (waiting 0) attached)
    (fun t => t.unit 0 == { waiting 0 with attached := false }) = true := by decide

/-- V-HOST-2. -/
theorem test_dep_da : after (.depDa 0 0x503) (machine attached attached)
    (fun t => t.unit 0 == { attached with da := 0x503 }) = true := by decide
/-- R68. -/
theorem test_dep_sa : after (.depSa 1 0xFFFFFFFFFFFFFFFF) State.reset
    (fun t => t.unit 1 == { DrumUnit.created with sa := 0x0FFFFFFF }) = true := by decide
/-- R68. -/
theorem test_dep_ca : after (.depCa 0 0x123456789ABCDEF0) State.reset
    (fun t => t.unit 0 == { DrumUnit.created with ca := 0x0ABCDEF0 }) = true := by decide
/-- V-HOST-1, with every bit (L1-6's first step). -/
theorem test_dep_ds : after (.depDs 0 0xFFFFFFFF) State.reset
    (fun t => t.unit 0 == { DrumUnit.created with ds := 0xFFFFFFFF }) = true := by decide

/-- V-HOST-3. -/
theorem test_exam_da : returns (.examDa 0) State.reset 0 = true := by decide
/-- R69. -/
theorem test_exam_sa : returns (.examSa 1) (machine attached { attached with sa := 0x12340 }) 0x12340 = true := by decide
/-- R69. -/
theorem test_exam_ca : returns (.examCa 0) (machine { attached with ca := 0x0ABCDEF0 } attached) 0x0ABCDEF0 = true := by decide
/-- V-HOST-4. -/
theorem test_exam_ds : returns (.examDs 0) (machine { attached with ds := 0x0F } attached) 0x0F = true := by decide
/-- V-HOST-5. -/
theorem test_exam_cp : returns (.examCp 0) (machine (atPos 5) (atPos 17)) 0x445 = true := by decide

/-- V-DS-1. -/
theorem test_rf_read : returns (.rfRead 0 0 3) (machine { attached with ds := 0x00A5A5A5 } attached) 0x00A5A5A0 = true := by decide
/-- V-RF-10. -/
theorem test_rf_write_da : after (.rfWrite 0 0 0 0x100000001F01) (machine attached attached)
    (fun t => (t.unit 0).da == 0x80001F01) = true := by decide
/-- V-RF-7. -/
theorem test_rf_write_ds : after (.rfWrite 1 0 3 0xFFFFFFFF) (machine attached { attached with ds := 0x00A5A5A5 })
    (fun t => (t.unit 1).ds == 0x00002420) = true := by decide

/-! ### Witnesses: a state and operands that meet the hypotheses of each statement that has some -/

/-- Two attached units, unit 0 with the request of V-DU-2 pending at position 4, unit 1 at the last position. -/
def live : State := machine (waiting 4) { attached with pos := 31 }

/-- The same machine with the other view of the positions. -/
def ownField : State := { live with cfg := { Config.rc with curposView := .ownField } }

/-- The premise of most statements, at the last unit. -/
theorem witness_live : live.Live ∧ (1 : UnitNo).toNat < live.cfg.nDrums := by decide

theorem witness_DecodedWordIsTheEncoding : decode 0x00000000_00000000_00000000_08030123#128 = .ok (.vrDs 1 (.pair 0 3)) := rfl

theorem witness_SelectorOutsideTheTableIsRefused :
    ((0x25#128).extractLsb' 0 8).toNat ∉ selectors ∧ live.cfg.wf = true
      ∧ ({ live with issued := [0x25#128] } : State).issued = 0x25#128 :: [] := by decide

theorem witness_StepRunsTheDecodedOperation :
    live.cfg.wf = true ∧ ({ live with issued := [0x40#128] } : State).issued = 0x40#128 :: []
      ∧ decode 0x40#128 = .ok .tick := ⟨by decide, rfl, rfl⟩

theorem witness_StepRefusesAnIllFormedConfigurationAndIdles :
    ({ live with cfg := { Config.rc with bpb := [65, 32] } } : State).cfg.wf = false
      ∧ State.reset.cfg.wf = true ∧ State.reset.issued = [] := by decide

/-- One instruction of each constructor, at the last unit, in three parts. -/
def wellFormedBus : List Instr :=
  [.br 0x02800000, .bw 0x02800000 1, .vrDa 1 .named, .vrSa 1 (.pair 0 1), .vrCa 1 .named, .vrDs 1 (.pair 0 3), .vrCp 1 .named,
    .vrNone 1 (.pair 7 255)]
def wellFormedDrum : List Instr :=
  [.vwDa 1 (.pair 0 0) 1, .vwSa 1 .named 1, .vwCa 1 (.pair 0 2) 1, .vwDs 1 .named 1, .vwCp 1 (.pair 0 4) 1, .vwNone 1 .named 1,
    .tick, .adv 1, .reset, .attach 1, .detach 1]
def wellFormedHost : List Instr :=
  [.depDa 1 1, .depSa 1 1, .depCa 1 1, .depDs 1 1, .examDa 1, .examSa 1, .examCa 1, .examDs 1, .examCp 1, .rfRead 1 0 0,
    .rfWrite 1 0 0 1]

theorem witness_EveryOperationCompletes : wellFormedBus.all (fun i => i.wf live.cfg) = true
    ∧ wellFormedDrum.all (fun i => i.wf live.cfg) = true ∧ wellFormedHost.all (fun i => i.wf live.cfg) = true := by decide

theorem witness_UnitAtOrAboveNDrumsIsRefused :
    (Instr.adv 2).unitOperand = some 2 ∧ live.cfg.nDrums ≤ (2 : UnitNo).toNat := by decide

/-- A refusal for each of the three reasons. -/
theorem witness_RefusedExactlyOutsideTheClosedSet :
    exec (.adv 2) live = .refused .noSuchUnit ∧ exec (.vrDa 1 (.pair 0 1)) live = .refused .selectorMismatch
      ∧ exec (.rfRead 2 0 0) live = .refused .noSuchRegisterFile := ⟨rfl, rfl, rfl⟩

/-- SA is a MERGE line whose mask is all ones of the width and which has no transform; CP's mask is 0; and a line whose
transform shows a writable bit otherwise than it is stored. -/
theorem witness_MergeWriteTakesTheMaskedBits :
    let D := Config.rc.lineDesc .sa
    let E : LineDesc := { D with readTransform := some (.forceOnes 1) }
    (D.kind = .merge ∧ D.widthOk = true ∧ D.writeMask = D.cut (BitVec.allOnes 64) ∧ D.cut 5 = 5 ∧ D.readTransform = none)
      ∧ ((Config.rc.lineDesc .cp).kind = .merge ∧ (Config.rc.lineDesc .cp).widthOk = true ∧ (Config.rc.lineDesc .cp).writeMask = 0)
      ∧ (E.kind = .merge ∧ E.widthOk = true ∧ E.writeMask.getLsbD 0 = true ∧ (E.readValue 0).getLsbD 0 ≠ (0 : Data).getLsbD 0) := by
  decide

theorem witness_W1cWriteClearsTheWrittenOnes :
    (Config.rc.lineDesc .ds).kind = .w1c ∧ (Config.rc.lineDesc .ds).widthOk = true := by decide

/-- Two data that differ only outside DA's mask. -/
theorem witness_RepackWriteReplacesTheValue :
    (Config.rc.lineDesc .da).kind = .repack 0x80000000 ∧ (Config.rc.lineDesc .da).widthOk = true
      ∧ (0x1#64 &&& (Config.rc.lineDesc .da).writeMask = 0x800000C1#64 &&& (Config.rc.lineDesc .da).writeMask) := by decide

theorem witness_WriteKeepsWithinTheWidth :
    (Config.rc.lineDesc .sa).widthOk = true ∧ (Config.rc.lineDesc .sa).fixedOk = true
      ∧ (Config.rc.lineDesc .sa).cut 0x0FFFFFFF = 0x0FFFFFFF ∧ (Config.rc.lineDesc .sa).width ≤ 28 := by decide

/-- Every mapped line is named by both operand forms and by a real address, at the last unit. -/
theorem witness_names_and_addresses :
    Line.all.all (fun X => LineOperand.named.names live.cfg X) = true
      ∧ (LineOperand.pair 0 0).names live.cfg .da = true ∧ (LineOperand.pair 0 1).names live.cfg .sa = true
      ∧ (LineOperand.pair 0 2).names live.cfg .ca = true ∧ (LineOperand.pair 0 3).names live.cfg .ds = true
      ∧ (LineOperand.pair 0 4).names live.cfg .cp = true
      ∧ live.cfg.addresses 0x02800000 1 .da = true ∧ live.cfg.addresses 0x02800001 1 .sa = true
      ∧ live.cfg.addresses 0x02800002 1 .ca = true ∧ live.cfg.addresses 0x02800003 1 .ds = true
      ∧ live.cfg.addresses 0xF2800004 1 .cp = true := by decide

theorem witness_VrDaReadsWithTheFixedBit :
    live.Live ∧ (1 : UnitNo).toNat < live.cfg.nDrums ∧ (LineOperand.pair 0 0).names live.cfg .da = true
      ∧ live.cfg.addresses 0x02800000 (1 : UnitNo).toNat .da = true :=
  ⟨witness_live.1, by decide⟩
theorem witness_VrSaReadsTheStoreAddress :
    live.Live ∧ (1 : UnitNo).toNat < live.cfg.nDrums ∧ (LineOperand.pair 0 1).names live.cfg .sa = true
      ∧ live.cfg.addresses 0x02800001 (1 : UnitNo).toNat .sa = true :=
  ⟨witness_live.1, by decide⟩
theorem witness_VrCaReadsTheCompleteAddress :
    live.Live ∧ (1 : UnitNo).toNat < live.cfg.nDrums ∧ (LineOperand.pair 0 2).names live.cfg .ca = true
      ∧ live.cfg.addresses 0x02800002 (1 : UnitNo).toNat .ca = true :=
  ⟨witness_live.1, by decide⟩
theorem witness_VrDsReadsWithoutTheUnitField :
    live.Live ∧ (1 : UnitNo).toNat < live.cfg.nDrums ∧ (LineOperand.pair 0 3).names live.cfg .ds = true
      ∧ live.cfg.addresses 0x02800003 (1 : UnitNo).toNat .ds = true :=
  ⟨witness_live.1, by decide⟩

/-- Each of the two views. -/
theorem witness_CurrentPositionsReadThePositions :
    (live.Live ∧ (1 : UnitNo).toNat < live.cfg.nDrums ∧ (LineOperand.pair 0 4).names live.cfg .cp = true
        ∧ live.cfg.addresses 0x02800004 (1 : UnitNo).toNat .cp = true ∧ live.cfg.curposView = .packedAll)
      ∧ (ownField.Live ∧ (1 : UnitNo).toNat < ownField.cfg.nDrums ∧ LineOperand.named.names ownField.cfg .cp = true
        ∧ ownField.cfg.addresses 0x02800004 (1 : UnitNo).toNat .cp = true ∧ ownField.cfg.curposView = .ownField) := by decide

/-- A pair that names no line, the first past CP, and addresses that resolve to none and to that pair. -/
theorem witness_UnmappedLinesAreInert :
    live.Live ∧ (1 : UnitNo).toNat < live.cfg.nDrums ∧ live.cfg.lineAt ⟨0, 5⟩ = none
      ∧ live.cfg.routeOf ((0x02000000#32).extractLsb' 24 4) = .drum (1 : UnitNo).toNat
      ∧ (∀ X ∈ Line.all, live.cfg.addresses 0x02000000 (1 : UnitNo).toNat X = false)
      ∧ live.cfg.routeOf ((0x02800005#32).extractLsb' 24 4) = .drum (1 : UnitNo).toNat
      ∧ (∀ X ∈ Line.all, live.cfg.addresses 0x02800005 (1 : UnitNo).toNat X = false) :=
  ⟨witness_live.1, by decide⟩

/-- The word a write of DA stores under RC. -/
def stored (d : Data) : BitVec 32 := (d.setWidth 32 &&& live.cfg.discAddressMask) ||| 0x80000000#32

/-- Each way into VW.DA; and each condition of an illegal request at its boundary beside a legal one: no medium, block 32
of 32, size 0, size 33 (V-VAL-1, 7, 3, 4), and block 31 with size 32 (V-VAL-6). -/
theorem witness_VwDaStoresAndValidates :
    live.Live ∧ State.reset.Live ∧ (0 : UnitNo).toNat < live.cfg.nDrums
      ∧ (LineOperand.pair 0 0).names live.cfg .da = true ∧ live.cfg.addresses 0x01800000 (0 : UnitNo).toNat .da = true
      ∧ (State.reset.unit (0 : UnitNo).toNat).attached = false
      ∧ live.cfg.bpbOf (0 : UnitNo).toNat ≤ ((stored 0x2001).extractLsb' 8 6).toNat
      ∧ (stored 0x0500).extractLsb' 0 8 = 0#8
      ∧ live.cfg.bpbOf (0 : UnitNo).toNat < ((stored 0x0521).extractLsb' 0 8).toNat
      ∧ ¬ ((live.unit (0 : UnitNo).toNat).attached = false
          ∨ live.cfg.bpbOf (0 : UnitNo).toNat ≤ ((stored 0x1F20).extractLsb' 8 6).toNat
          ∨ (stored 0x1F20).extractLsb' 0 8 = 0#8
          ∨ live.cfg.bpbOf (0 : UnitNo).toNat < ((stored 0x1F20).extractLsb' 0 8).toNat) :=
  ⟨witness_live.1, by decide⟩

theorem witness_VwSaAndVwCaStoreTwentyEightBits :
    live.Live ∧ (1 : UnitNo).toNat < live.cfg.nDrums ∧ LineOperand.named.names live.cfg .sa = true
      ∧ live.cfg.addresses 0x02800001 (1 : UnitNo).toNat .sa = true ∧ LineOperand.named.names live.cfg .ca = true
      ∧ live.cfg.addresses 0x02800002 (1 : UnitNo).toNat .ca = true :=
  ⟨witness_live.1, by decide⟩
theorem witness_VwDsClearsTheWrittenOnes :
    live.Live ∧ (1 : UnitNo).toNat < live.cfg.nDrums ∧ LineOperand.named.names live.cfg .ds = true
      ∧ live.cfg.addresses 0x02800003 (1 : UnitNo).toNat .ds = true :=
  ⟨witness_live.1, by decide⟩
theorem witness_VwCpChangesNothing :
    live.Live ∧ (1 : UnitNo).toNat < live.cfg.nDrums ∧ LineOperand.named.names live.cfg .cp = true
      ∧ live.cfg.addresses 0x02800004 (1 : UnitNo).toNat .cp = true :=
  ⟨witness_live.1, by decide⟩

/-- RegisterFile 1, with each of the six answers of the line map. -/
theorem witness_RfReadAndRfWrite :
    live.Live ∧ (1#8).toNat < live.cfg.nDrums ∧ (1 : UnitNo).toNat = (1#8).toNat
      ∧ [live.cfg.lineAt ⟨0, 0⟩, live.cfg.lineAt ⟨0, 1⟩, live.cfg.lineAt ⟨0, 2⟩, live.cfg.lineAt ⟨0, 3⟩, live.cfg.lineAt ⟨0, 4⟩,
          live.cfg.lineAt ⟨7, 255⟩] = [some .da, some .sa, some .ca, some .ds, some .cp, none] :=
  ⟨witness_live.1, by decide⟩

/-- The three statements on DEP and EXAM, and ATTACH and DETACH, ask `witness_live` alone. -/
theorem witness_DepositAndExamine : live.Live ∧ (0 : UnitNo).toNat < live.cfg.nDrums :=
  ⟨witness_live.1, by decide⟩

/-- A real address of each handler, two of a resolved and an unresolved offset, and two that differ in bits 31:28. -/
theorem witness_BusReadAndBusWriteRoute :
    live.Live ∧ live.cfg.routeOf ((0x0F800000#32).extractLsb' 24 4) = .unrouted
      ∧ live.cfg.routeOf ((0x01800000#32).extractLsb' 24 4) = .drum 0
      ∧ live.cfg.routeOf ((0x00000010#32).extractLsb' 24 4) = .external 0
      ∧ live.cfg.resolveOffset ((0x01800000#32).extractLsb' 0 24) = some ⟨0, 0⟩
      ∧ live.cfg.resolveOffset ((0x01000000#32).extractLsb' 0 24) = none
      ∧ (0xF1800000#32).extractLsb' 0 28 = (0x01800000#32).extractLsb' 0 28 :=
  ⟨witness_live.1, by decide⟩

theorem witness_LogsGrowOnlyOnTheBus :
    live.refused = none ∧ (∃ t, exec (.br 0x0F800000) live = .next t ∧ t.diag ≠ live.diag)
      ∧ (∃ t, exec (.bw 0x03800001 5) live = .next t ∧ t.diag ≠ live.diag)
      ∧ ∃ t, exec (.bw 0x00000010 0x1234) live = .next t ∧ t.extLog ≠ live.extLog :=
  ⟨rfl, ⟨_, rfl, by decide⟩, ⟨_, rfl, by decide⟩, ⟨_, rfl, by decide⟩⟩

/-- Unit 0 arrives at its block at the next advance; unit 1, at the last position, has no request. -/
theorem witness_AdvMovesOneBlockAndStartsOnArrival :
    live.Live ∧ (0 : UnitNo).toNat < live.cfg.nDrums ∧ (1 : UnitNo).toNat < live.cfg.nDrums
      ∧ (live.unit 0).req = .pending request ∧ request.block.toNat = ((live.unit 0).pos + 1) % live.cfg.bpbOf 0
      ∧ (live.unit 1).req = .noRequest :=
  ⟨witness_live.1, by decide⟩

/-- Both units, the last one first. -/
theorem witness_TickIsAdvOfEveryUnitInAnyOrder :
    live.Live ∧ ([1, 0].map (fun u : UnitNo => u.toNat)).Perm (List.range live.cfg.nDrums) :=
  ⟨witness_live.1, by decide⟩

/-- Two machines that differ in unit 1. -/
theorem witness_AdvancesOfDistinctUnitsAreIndependent :
    live.Live ∧ (machine (waiting 4) attached).Live ∧ (0 : UnitNo).toNat < live.cfg.nDrums
      ∧ (1 : UnitNo).toNat < live.cfg.nDrums ∧ (0 : UnitNo) ≠ 1 ∧ (machine (waiting 4) attached).cfg = live.cfg
      ∧ (machine (waiting 4) attached).unit (0 : UnitNo).toNat = live.unit (0 : UnitNo).toNat := by decide

theorem witness_AdvancesWrapAround : live.Live ∧ (1 : UnitNo).toNat < live.cfg.nDrums ∧ (live.unit 1).pos = live.cfg.bpbOf 1 - 1 :=
  ⟨witness_live.1, by decide⟩

/-- A read, an advance of the other unit and a tick: the start comes at the first advance (k = 1), V-ROT-6. -/
theorem witness_PendingRequestStartsAfterTheRotationalWait :
    live.Live ∧ (0 : UnitNo).toNat < live.cfg.nDrums ∧ (live.unit (0 : UnitNo).toNat).req = .pending request
      ∧ (∀ i ∈ [Instr.vrDs 0 .named, .adv 1, .tick], i ≠ .reset ∧ i.writes live.cfg (0 : UnitNo).toNat .da = false)
      ∧ (∃ t, execAll [.vrDs 0 .named, .adv 1, .tick] live = .next t)
      ∧ ((1 : Nat) : Int) = ((request.block.toNat : Int) - (live.unit 0).pos - 1) % (live.cfg.bpbOf 0 : Int) + 1
      ∧ [Instr.vrDs 0 .named, .adv 1, .tick].countP (fun i => i.advances 0) = 1
      ∧ (∃ t, execAll [.vrDs 0 .named, .adv 1] live = .next t ∧ t.refused = none
        ∧ [Instr.vrDs 0 .named, .adv 1].countP (fun i => i.advances 0) + 1 = 1
        ∧ (Instr.adv 0).advances 0 = true ∧ ∃ w, exec (.adv 0) t = .next w) :=
  ⟨witness_live.1, by decide, by decide, by decide, ⟨_, rfl⟩, by decide, by decide, ⟨_, rfl, rfl, by decide, by decide, _, rfl⟩⟩

/-- The longest and another wait: V-ROT-7 (k = 32) and V-ROT-9 (k = 25). -/
theorem test_rotational_wait : ((5 : Int) - 5 - 1) % 32 + 1 = 32 ∧ ((3 : Int) - 10 - 1) % 32 + 1 = 25 := by decide

/-- A mark that stays under RESET, and one that a start sets. -/
theorem witness_RefusalMarkIsStickyAndSetOnlyByAStart :
    (∃ t, exec .reset { live with refused := some .unmodelledTransfer } = .next t)
      ∧ ∃ t, exec .tick live = .next t ∧ live.refused = none ∧ t.refused = some .unmodelledTransfer :=
  ⟨⟨_, rfl⟩, ⟨_, rfl, by decide, by decide⟩⟩

/-- A line changed by a write, by a deposit, by RESET, and DS by a write of DA. -/
theorem witness_LinesChangeOnlyByTheirWriters :
    (live.refused = none ∧ (machine { attached with ca := 1 } attached).refused = none)
      ∧ (∃ t, exec (.bw 0x01800001 7) live = .next t ∧ (t.unit 0).line .sa ≠ (live.unit 0).line .sa)
      ∧ (∃ t, exec (.depDs 1 7) live = .next t ∧ (t.unit 1).line .ds ≠ (live.unit 1).line .ds)
      ∧ (∃ t, exec .reset (machine { attached with ca := 1 } attached) = .next t
          ∧ (t.unit 0).line .ca ≠ ((machine { attached with ca := 1 } attached).unit 0).line .ca)
      ∧ ∃ t, exec (.vwDa 0 .named 0) live = .next t ∧ (t.unit 0).line .ds ≠ (live.unit 0).line .ds :=
  ⟨⟨rfl, rfl⟩, ⟨_, rfl, by decide⟩, ⟨_, rfl, by decide⟩, ⟨_, rfl, by decide⟩, ⟨_, rfl, by decide⟩⟩

theorem witness_PositionChangesOnlyByAdvanceAndReset :
    live.refused = none ∧ (∃ t, exec (.adv 1) live = .next t ∧ (t.unit 1).pos ≠ (live.unit 1).pos)
      ∧ ∃ t, exec .reset live = .next t ∧ (t.unit 0).pos ≠ (live.unit 0).pos := ⟨rfl, ⟨_, rfl, by decide⟩, ⟨_, rfl, by decide⟩⟩

theorem witness_AttachedChangesOnlyByTheHost :
    (live.refused = none ∧ State.reset.refused = none) ∧ (∃ t, exec (.detach 1) live = .next t ∧ (t.unit 1).attached ≠ (live.unit 1).attached)
      ∧ ∃ t, exec (.attach 1) State.reset = .next t ∧ (t.unit 1).attached ≠ (State.reset.unit 1).attached :=
  ⟨⟨rfl, rfl⟩, ⟨_, rfl, by decide⟩, ⟨_, rfl, by decide⟩⟩

theorem witness_RequestChangesOnlyByDaWriteAdvanceAndReset :
    live.refused = none ∧ (∃ t, exec (.rfWrite 1 0 0 1) live = .next t ∧ (t.unit 1).req ≠ (live.unit 1).req)
      ∧ (∃ t, exec .tick live = .next t ∧ (t.unit 0).req ≠ (live.unit 0).req)
      ∧ ∃ t, exec .reset live = .next t ∧ (t.unit 0).req ≠ (live.unit 0).req :=
  ⟨rfl, ⟨_, rfl, by decide⟩, ⟨_, rfl, by decide⟩, ⟨_, rfl, by decide⟩⟩

theorem witness_OperationOnOneUnitLeavesTheOthers :
    live.refused = none ∧ (∃ t, exec (.bw 0x01800000 1) live = .next t) ∧ (Instr.bw 0x01800000 1).directedAt live.cfg 0 = true ∧ 1 ≠ 0 :=
  ⟨rfl, ⟨_, rfl⟩, by decide, by decide⟩

theorem witness_ReadsChangeNothingAndRepeat :
    live.refused = none
      ∧ [Instr.vrDa 1 .named, .vrNone 1 (.pair 1 0), .examCp 1, .rfRead 1 0 3].all (fun i => i.reads && i.wf live.cfg) = true
      ∧ (Instr.br 0x02800004).wf live.cfg = true ∧ live.cfg.routeOf ((0x02800004#32).extractLsb' 24 4) = .drum 1
      ∧ (Instr.br 0x02000000).wf live.cfg = true ∧ live.cfg.routeOf ((0x02000000#32).extractLsb' 24 4) = .drum 1 := by decide

/-- Well-formed writes of the four lines of the last unit and reads of them, in each form: by name, by pair, by RegisterFile
and by the bus. -/
theorem witness_ReadAfterWriteSeesTheWrite :
    live.Live ∧ 1 < live.cfg.nDrums
      ∧ [Instr.vwDa 1 .named 7, .vwDa 1 (.pair 0 0) 7, .rfWrite 1 0 0 7, .bw 0x02800000 7].all
          (fun w => w.wf live.cfg && w.datum == some 7 && w.writes live.cfg 1 .da) = true
      ∧ [Instr.vwSa 1 (.pair 0 1) 7, .bw 0x02800001 7].all
          (fun w => w.wf live.cfg && w.datum == some 7 && w.writes live.cfg 1 .sa) = true
      ∧ [Instr.vwCa 1 .named 7, .bw 0x02800002 7].all
          (fun w => w.wf live.cfg && w.datum == some 7 && w.writes live.cfg 1 .ca) = true
      ∧ [Instr.vwDs 1 (.pair 0 3) 7, .bw 0xF2800003 7].all
          (fun w => w.wf live.cfg && w.datum == some 7 && w.writes live.cfg 1 .ds) = true
      ∧ [Instr.vrDa 1 (.pair 0 0), .rfRead 1 0 0, .br 0x02800000].all
          (fun j => j.wf live.cfg && j.readsLine live.cfg 1 .da) = true
      ∧ [Instr.vrSa 1 .named, .br 0x02800001].all (fun j => j.wf live.cfg && j.readsLine live.cfg 1 .sa) = true
      ∧ [Instr.vrCa 1 (.pair 0 2), .br 0x02800002].all (fun j => j.wf live.cfg && j.readsLine live.cfg 1 .ca) = true
      ∧ [Instr.vrDs 1 .named, .rfRead 1 0 3, .br 0x02800003].all
          (fun j => j.wf live.cfg && j.readsLine live.cfg 1 .ds) = true :=
  ⟨witness_live.1, by decide⟩

theorem witness_ResetZeroesEveryUnit : live.Live ∧ 1 < live.cfg.nDrums :=
  ⟨witness_live.1, by decide⟩

theorem witness_StepKeepsTheInvariant :
    ({ live with issued := [0x40#128] } : State).Inv ∧ ∃ t, step { live with issued := [0x40#128] } = .next t :=
  ⟨by decide, ⟨_, rfl⟩⟩

/-- Four units, with the smallest and the largest BPB. -/
def fourUnits : Config :=
  { Config.rc with bpb := [1, 64, 64, 64], route := (Config.rc.route.set 3 (.drum 2)).set 4 (.drum 3) }

theorem witness_CreationMeetsTheInvariant : fourUnits.wf = true := by decide

end Sys2Proof.Tests
end

namespace Sys2Proof.Machine

/-! ## The state (10_state.md): what one operation does to each unit, to the mark and to the logs

`exec_effect` says what a completed operation did to the whole machine. From it follow three readings, each stated once:
what it did to one unit (`Effect.unit_cases`), to the refusal mark (`exec_refused`) and to the two logs (`exec_diag`,
`exec_extLog`). The statements of 10_state.md are read off them. -/

section

variable {i : Instr} {s t : State} {u : Nat} {X : Line} {U : DrumUnit}

/-! ### The fields of a drum unit (R20 to R27) -/

/-- Attach and detach leave every line (R95, R96). -/
@[simp] theorem DrumUnit.line_setAttached (d : DrumUnit) (b : Bool) (X : Line) :
    ({ d with attached := b } : DrumUnit).line X = d.line X := by
  cases X <;> rfl

/-- Validation drops the request or leaves it Pending; it never starts one (R80). -/
theorem DrumUnit.validate_started (c : Config) (bpb : Nat) (new : BitVec 32) (d : DrumUnit) :
    (d.validate c bpb new).req.started = false := by
  simp only [DrumUnit.validate]
  split <;> rfl

/-- What legality asks of a Pending request (R80). -/
theorem ReqState.legalFor_pending {bpb : Nat} {p : Request} :
    (ReqState.pending p).legalFor bpb = true ↔ p.block.toNat < bpb ∧ 1 ≤ p.size.toNat ∧ p.size.toNat ≤ bpb := by
  simp [ReqState.legalFor, and_assoc]

/-- A request that passes validation is legal (R80). -/
theorem DrumUnit.validate_legal (c : Config) (bpb : Nat) (new : BitVec 32) (d : DrumUnit) :
    (d.validate c bpb new).req.legalFor bpb = true := by
  simp only [DrumUnit.validate]
  split
  · rfl
  · next hlegal =>
    simp only [requestIllegal, Bool.or_eq_true, Bool.not_eq_true', decide_eq_true_eq, beq_iff_eq, not_or] at hlegal
    obtain ⟨⟨⟨-, hblock⟩, hzero⟩, hlarge⟩ := hlegal
    have hsize : (daSize new).toNat ≠ 0 := fun h0 => hzero (BitVec.eq_of_toNat_eq h0)
    exact ReqState.legalFor_pending.mpr
      ⟨Nat.lt_of_not_le hblock, Nat.pos_of_ne_zero hsize, Nat.le_of_not_lt hlarge⟩

/-- After a write of DA the unit's request is the one validation leaves (R79). -/
theorem DrumUnit.writeLine_da_req (c : Config) (bpb : Nat) (d : Data) (U : DrumUnit) :
    ∃ new, (U.writeLine c bpb .da d).req = (U.validate c bpb new).req :=
  ⟨_, rfl⟩

/-! ### What an operation does to one unit -/

/-- The five ways an operation can touch unit `u` (R17, R25 to R27): what the unit becomes, and which operation does it. -/
inductive UnitChange (i : Instr) (s : State) (u : Nat) : DrumUnit → Prop where
  | wrote (X : Line) (d : Data) (hw : i.writes s.cfg u X = true) :
      UnitChange i s u ((s.unit u).writeLine s.cfg (s.cfg.bpbOf u) X d)
  | deposited (X : Line) (v : Data) (hw : i.deposits u X = true) : UnitChange i s u ((s.unit u).setLine X v)
  | attachment (v : UnitNo) (b : Bool) (hv : v.toNat = u) (hi : i = if b then .attach v else .detach v) :
      UnitChange i s u { s.unit u with attached := b }
  | advanced (ha : i.advances u = true) : UnitChange i s u ((s.unit u).advanced (s.cfg.bpbOf u))
  | cleared (hi : i = .reset) : UnitChange i s u (s.unit u).reset

/-- An operation with the operand `v` is directed at no other unit (R16). -/
theorem eq_of_directedAt_of_unitOperand {c : Config} {v : UnitNo} {w : Nat} (hv : i.unitOperand = some v)
    (hw : i.directedAt c w = true) : w = v.toNat := by
  unfold Instr.directedAt at hw
  rw [hv] at hw
  exact (beq_iff_eq.mp hw).symm

/-- A completed operation leaves unit `u` as it was, or it is directed at no other unit and touches `u` in one of the
five ways (R16). -/
theorem Effect.unit_cases (h : Effect i s t) (u : Nat) :
    t.unit u = s.unit u ∨ (∀ w, i.directedAt s.cfg w = true → w = u) ∧ UnitChange i s u (t.unit u) := by
  cases h with
  | answered | discarded | unroutedRead | unroutedWrite | externalRead | externalWrite => exact .inl rfl
  | wrote v X d hw hd =>
    rcases State.unit_setUnit_cases s v u ((s.unit v).writeLine s.cfg (s.cfg.bpbOf v) X d) with ⟨rfl, -, he⟩ | he
    · exact .inr ⟨hd, by rw [State.silent_unit, he]; exact .wrote X d hw⟩
    · exact .inl he
  | deposited v X d hw hd =>
    rcases State.unit_setUnit_cases s v u ((s.unit v).setLine X d) with ⟨rfl, -, he⟩ | he
    · exact .inr ⟨hd, by rw [State.silent_unit, State.deposit, he]; exact .deposited X d hw⟩
    · exact .inl he
  | attachment v b hi =>
    rcases State.unit_setUnit_cases s v.toNat u { s.unit v.toNat with attached := b } with ⟨rfl, -, he⟩ | he
    · refine .inr ⟨fun w => eq_of_directedAt_of_unitOperand (by cases b <;> rw [hi] <;> rfl), ?_⟩
      rw [State.silent_unit, State.setAttached, he]
      exact .attachment v b rfl hi
    · exact .inl he
  | advanced v hi _ =>
    rcases State.unit_advance_cases s v.toNat u with he | ⟨rfl, -, he⟩
    · exact .inl he
    · refine .inr ⟨fun w => eq_of_directedAt_of_unitOperand (by rw [hi]; rfl), ?_⟩
      rw [State.silent_unit, he]
      exact .advanced (by simp [hi, Instr.advances])
  | ticked hi =>
    subst hi
    rcases State.unit_tick_cases s u with he | ⟨-, he⟩
    · exact .inl he
    · exact .inr ⟨nofun, by rw [State.silent_unit, he]; exact .advanced rfl⟩
  | cleared hi =>
    subst hi
    rcases State.unit_resetUnits_cases s u with he | he
    · exact .inl he
    · exact .inr ⟨nofun, by rw [State.silent_unit, he]; exact .cleared rfl⟩

/-- A unit of which a completed operation changed some field `f` was touched in one of the five ways. -/
theorem unitChange_of_field_ne {α : Type} (f : DrumUnit → α) (h : exec i s = .next t)
    (hne : f (t.unit u) ≠ f (s.unit u)) : UnitChange i s u (t.unit u) :=
  ((exec_effect h).unit_cases u).elim (fun he => absurd (congrArg f he) hne) And.right

/-! ### Who changes a field of a unit -/

/-- A line changes by its own write, by a deposit, by RESET, or DS by the write of DA (R17, R19). -/
theorem UnitChange.line_writer (h : UnitChange i s u U) (hne : U.line X ≠ (s.unit u).line X) :
    i.writes s.cfg u X = true ∨ i.deposits u X = true ∨ i = .reset ∨ (X = .ds ∧ i.writes s.cfg u .da = true) := by
  cases h with
  | wrote Y d hw =>
    by_cases hXY : X = Y
    · exact .inl (hXY ▸ hw)
    · by_cases hds : Y = .da ∧ X = .ds
      · exact .inr (.inr (.inr ⟨hds.2, hds.1 ▸ hw⟩))
      · exact absurd (DrumUnit.writeLine_line _ _ _ d Y X hXY hds) hne
  | deposited Y v hw =>
    by_cases hXY : X = Y
    · exact .inr (.inl (hXY ▸ hw))
    · exact absurd (DrumUnit.line_setLine_of_ne _ v Y X hXY) hne
  | attachment v b => exact absurd (DrumUnit.line_setAttached _ b X) hne
  | advanced => exact absurd (DrumUnit.advanced_line _ _ X) hne
  | cleared hi => exact .inr (.inr (.inl hi))

/-- A position changes by an advance or by RESET (R25). -/
theorem UnitChange.pos_writer (h : UnitChange i s u U) (hne : U.pos ≠ (s.unit u).pos) :
    i.advances u = true ∨ i = .reset := by
  cases h with
  | wrote Y d => exact absurd (DrumUnit.writeLine_pos _ _ _ d Y) hne
  | deposited Y v => exact absurd (DrumUnit.setLine_pos _ v Y) hne
  | attachment => exact absurd rfl hne
  | advanced ha => exact .inl ha
  | cleared hi => exact .inr hi

/-- The attach flag changes by ATTACH, which sets it, and by DETACH, which clears it (R26). -/
theorem UnitChange.attached_writer (h : UnitChange i s u U) (hne : U.attached ≠ (s.unit u).attached) :
    ∃ v : UnitNo, v.toNat = u ∧ (i = .attach v ∧ U.attached = true ∨ i = .detach v ∧ U.attached = false) := by
  cases h with
  | wrote Y d => exact absurd (DrumUnit.writeLine_attached _ _ _ d Y) hne
  | deposited Y v => exact absurd (DrumUnit.setLine_attached _ v Y) hne
  | attachment v b hv hi =>
    refine ⟨v, hv, ?_⟩
    cases b with
    | true => exact .inl ⟨hi, rfl⟩
    | false => exact .inr ⟨hi, rfl⟩
  | advanced => exact absurd (DrumUnit.advanced_attached _ _) hne
  | cleared => exact absurd rfl hne

/-- A request changes by the write of DA, by an advance or by RESET (R27). -/
theorem UnitChange.req_writer (h : UnitChange i s u U) (hne : U.req ≠ (s.unit u).req) :
    i.writes s.cfg u .da = true ∨ i.advances u = true ∨ i = .reset := by
  cases h with
  | wrote Y d hw =>
    by_cases hY : Y = .da
    · exact .inl (hY ▸ hw)
    · exact absurd (DrumUnit.writeLine_req _ _ _ d Y hY) hne
  | deposited Y v => exact absurd (DrumUnit.setLine_req _ v Y) hne
  | attachment => exact absurd rfl hne
  | advanced ha => exact .inr (.inl ha)
  | cleared hi => exact .inr (.inr hi)

/-! ### What a changed unit keeps -/

/-- A position below BPB stays below it (R25). -/
theorem UnitChange.pos_lt (h : UnitChange i s u U) (hpos : (s.unit u).pos < s.cfg.bpbOf u) :
    U.pos < s.cfg.bpbOf u := by
  have hbpb : 0 < s.cfg.bpbOf u := Nat.zero_lt_of_lt hpos
  cases h with
  | wrote Y d => rwa [DrumUnit.writeLine_pos]
  | deposited Y v => rwa [DrumUnit.setLine_pos]
  | attachment => exact hpos
  | advanced => rw [DrumUnit.advanced_pos]; exact Nat.mod_lt _ hbpb
  | cleared => exact hbpb

/-- The request an advance leaves is legal if the one before it was: a start keeps the request's fields (R90). -/
theorem DrumUnit.advanced_legal (bpb : Nat) (d : DrumUnit) (h : d.req.legalFor bpb = true) :
    (d.advanced bpb).req.legalFor bpb = true := by
  rcases d.advanced_req bpb with ⟨p, hp, he⟩ | ⟨-, he⟩
  · rw [((DrumUnit.arrived_iff bpb d p).mp hp).1] at h
    rw [he]
    exact h
  · rwa [he]

/-- A held request stays legal, and a new one is (R80). -/
theorem UnitChange.req_legal (h : UnitChange i s u U) (hreq : (s.unit u).req.legalFor (s.cfg.bpbOf u) = true) :
    U.req.legalFor (s.cfg.bpbOf u) = true := by
  cases h with
  | wrote Y d =>
    by_cases hY : Y = .da
    · subst hY
      obtain ⟨new, he⟩ := DrumUnit.writeLine_da_req s.cfg (s.cfg.bpbOf u) d (s.unit u)
      rw [he]
      exact DrumUnit.validate_legal _ _ new _
    · rwa [DrumUnit.writeLine_req _ _ _ d Y hY]
  | deposited Y v => rwa [DrumUnit.setLine_req]
  | attachment => exact hreq
  | advanced => exact DrumUnit.advanced_legal _ _ hreq
  | cleared => rfl

/-- A unit InTransfer was so before, or an advance has brought it to its block (R90). -/
theorem UnitChange.started (h : UnitChange i s u U) (hs : U.req.started = true) :
    (s.unit u).req.started = true
      ∨ i.advances u = true ∧ (((s.unit u).rotate (s.cfg.bpbOf u)).arrived).isSome = true := by
  cases h with
  | wrote Y d =>
    by_cases hY : Y = .da
    · subst hY
      obtain ⟨new, he⟩ := DrumUnit.writeLine_da_req s.cfg (s.cfg.bpbOf u) d (s.unit u)
      rw [he, DrumUnit.validate_started] at hs
      exact absurd hs Bool.false_ne_true
    · exact .inl (DrumUnit.writeLine_req _ _ _ d Y hY ▸ hs)
  | deposited Y v => exact .inl (DrumUnit.setLine_req _ v Y ▸ hs)
  | attachment => exact .inl hs
  | advanced ha =>
    rcases (s.unit u).advanced_req (s.cfg.bpbOf u) with ⟨p, hp, -⟩ | ⟨-, he⟩
    · exact .inr ⟨ha, by rw [hp]; rfl⟩
    · exact .inl (he ▸ hs)
  | cleared => exact absurd hs Bool.false_ne_true

/-! ### What no operation changes -/

/-- No operation changes the configuration (R7). -/
theorem Effect.cfg_eq (h : Effect i s t) : t.cfg = s.cfg := by
  cases h with
  | advanced v => exact State.advance_cfg s v.toNat
  | ticked => exact (foldl_advance_frame _ s).1
  | _ => rfl

/-- No operation adds or removes a unit (R13). -/
theorem Effect.units_length (h : Effect i s t) : t.units.length = s.units.length := by
  cases h with
  | wrote | deposited | attachment => exact List.length_set
  | advanced v => simp
  | ticked =>
    obtain ⟨-, -, -, -, -, -, hlen⟩ := foldl_advance_frame (List.range s.cfg.nDrums) s
    exact hlen
  | cleared => exact List.length_map _
  | _ => rfl

/-! ### The refusal mark (R30, R94) -/

/-- The units an operation advances, in the model's order (R90, R91). -/
def Instr.advancedUnits (c : Config) (i : Instr) : List Nat :=
  match i with
  | .adv v => [v.toNat]
  | .tick => List.range c.nDrums
  | _ => []

theorem Instr.nodup_advancedUnits (c : Config) (i : Instr) : (advancedUnits c i).Nodup := by
  cases i with
  | adv v => exact List.nodup_singleton _
  | tick => exact List.nodup_range
  | _ => exact List.nodup_nil

theorem Instr.advances_of_mem_advancedUnits {c : Config} (h : u ∈ advancedUnits c i) : i.advances u = true := by
  cases i with
  | adv v => exact beq_iff_eq.mpr (List.mem_singleton.mp h).symm
  | tick => rfl
  | _ => exact absurd h List.not_mem_nil

theorem Instr.mem_advancedUnits_of_advances {c : Config} (hu : u < c.nDrums) (h : i.advances u = true) :
    u ∈ advancedUnits c i := by
  cases i with
  | adv v => exact List.mem_singleton.mpr (beq_iff_eq.mp h).symm
  | tick => exact List.mem_range.mpr hu
  | _ => exact absurd h Bool.false_ne_true

/-- An operation that is no advance leaves the mark. -/
theorem Effect.refused_of_not_advance (h : Effect i s t) (hadv : ∀ v, i ≠ .adv v) (htick : i ≠ .tick) :
    t.refused = s.refused := by
  cases h with
  | advanced v hi => exact absurd hi (hadv v)
  | ticked hi => exact absurd hi htick
  | _ => rfl

/-- The mark after an operation is the one its advances leave. -/
theorem exec_refused (h : exec i s = .next t) :
    t.refused = ((Instr.advancedUnits s.cfg i).foldl State.advance s).refused := by
  cases i with
  | adv v =>
    obtain ⟨-, he⟩ := (onUnit_next (k := fun v => .next (s.advance v).silent)).mp h
    exact (congrArg State.refused (Host.Outcome.next.inj he)).symm
  | tick => exact (congrArg State.refused (Host.Outcome.next.inj h)).symm
  | _ => exact (exec_effect h).refused_of_not_advance nofun nofun

/-- The mark stays (R30). -/
theorem exec_keeps_mark (h : exec i s = .next t) (hs : s.refused = some .unmodelledTransfer) :
    t.refused = some .unmodelledTransfer :=
  (exec_refused h).trans (foldl_advance_refused_of_some _ s hs)

/-- A mark newly set comes from an advanced unit whose Pending request's block is the new position (R90, R94). -/
theorem exec_mark_cause (h : exec i s = .next t) (hs : s.refused = none) (ht : t.refused = some .unmodelledTransfer) :
    ∃ u p, i.advances u = true ∧ (s.unit u).req = .pending p
      ∧ p.block.toNat = ((s.unit u).pos + 1) % s.cfg.bpbOf u := by
  rw [exec_refused h] at ht
  obtain ⟨u, hu, p, hp⟩ := foldl_advance_arrived _ s (Instr.nodup_advancedUnits s.cfg i) hs ht
  obtain ⟨hreq, hblock⟩ := (DrumUnit.arrived_iff _ _ p).mp hp
  exact ⟨u, p, Instr.advances_of_mem_advancedUnits hu, hreq, hblock.symm⟩

/-- An advance that brings a unit to its block sets the mark (R94). -/
theorem exec_marks_arrival (h : exec i s = .next t) (hu : u < s.cfg.nDrums) (ha : i.advances u = true)
    (hp : (((s.unit u).rotate (s.cfg.bpbOf u)).arrived).isSome = true) : t.refused = some .unmodelledTransfer :=
  (exec_refused h).trans (foldl_advance_marks _ s (Instr.nodup_advancedUnits s.cfg i) u
    (Instr.mem_advancedUnits_of_advances hu ha) hp)

/-! ### The two logs (R29, R31) -/

/-- An operation that is no bus access leaves both logs. -/
theorem Effect.logs_of_not_bus (h : Effect i s t) (hbr : ∀ a, i ≠ .br a) (hbw : ∀ a d, i ≠ .bw a d) :
    t.diag = s.diag ∧ t.extLog = s.extLog := by
  cases h with
  | advanced v => exact ⟨State.advance_diag s v.toNat, State.advance_extLog s v.toNat⟩
  | ticked =>
    obtain ⟨-, hdiag, hext, -⟩ := foldl_advance_frame (List.range s.cfg.nDrums) s
    exact ⟨hdiag, hext⟩
  | unroutedRead a hi => exact absurd hi (hbr a)
  | unroutedWrite a d hi => exact absurd hi (hbw a d)
  | externalRead a e hi => exact absurd hi (hbr a)
  | externalWrite a d e hi => exact absurd hi (hbw a d)
  | _ => exact ⟨rfl, rfl⟩

/-- The diagnostic log grows by its record at each bus access with no handler, and else not at all (R76). -/
theorem exec_diag (h : exec i s = .next t) :
    (t.diag = s.diag ∧ ∀ a, (i = .br a ∨ ∃ d, i = .bw a d) → s.cfg.routeOf (addrUnit a) ≠ .unrouted)
      ∨ (∃ a, i = .br a ∧ s.cfg.routeOf (addrUnit a) = .unrouted ∧ t.diag = s.diag ++ [⟨.read, a, none⟩])
      ∨ ∃ a d, i = .bw a d ∧ s.cfg.routeOf (addrUnit a) = .unrouted ∧ t.diag = s.diag ++ [⟨.write, a, some d⟩] := by
  cases i with
  | br a =>
    obtain rfl : s.busRead a = t := Host.Outcome.next.inj h
    rcases State.busRead_cases s a with ⟨hr, he⟩ | ⟨v, hr, he⟩ | ⟨e, hr, he⟩ <;> rw [he]
    · exact .inr (.inl ⟨a, rfl, hr, rfl⟩)
    · exact .inl ⟨rfl, by simp [hr]⟩
    · exact .inl ⟨rfl, by simp [hr]⟩
  | bw a d =>
    obtain rfl : (s.busWrite a d).silent = t := Host.Outcome.next.inj h
    rcases State.busWrite_cases s a d with ⟨hr, he⟩ | ⟨v, hr, -, he⟩ | ⟨v, X, hr, -, he⟩ | ⟨e, hr, he⟩ <;> rw [he]
    · exact .inr (.inr ⟨a, d, rfl, hr, rfl⟩)
    · exact .inl ⟨rfl, by simp [hr]⟩
    · exact .inl ⟨rfl, by simp [hr]⟩
    · exact .inl ⟨rfl, by simp [hr]⟩
  | _ => exact .inl ⟨((exec_effect h).logs_of_not_bus nofun nofun).1, by simp⟩

/-- The external log grows by its record at each bus write to an external unit, and else not at all (R75). -/
theorem exec_extLog (h : exec i s = .next t) :
    (t.extLog = s.extLog ∧ ∀ a d e, i = .bw a d → s.cfg.routeOf (addrUnit a) ≠ .external e)
      ∨ ∃ a d e, i = .bw a d ∧ s.cfg.routeOf (addrUnit a) = .external e
          ∧ t.extLog = s.extLog ++ [⟨e, addrOffset a, d⟩] := by
  cases i with
  | br a =>
    obtain rfl : s.busRead a = t := Host.Outcome.next.inj h
    rcases State.busRead_cases s a with ⟨-, he⟩ | ⟨v, -, he⟩ | ⟨e, -, he⟩ <;> rw [he] <;> exact .inl ⟨rfl, nofun⟩
  | bw a d =>
    obtain rfl : (s.busWrite a d).silent = t := Host.Outcome.next.inj h
    rcases State.busWrite_cases s a d with ⟨hr, he⟩ | ⟨v, hr, -, he⟩ | ⟨v, X, hr, -, he⟩ | ⟨e, hr, he⟩ <;> rw [he]
    · exact .inl ⟨rfl, by rintro _ _ e ⟨⟩; simp [hr]⟩
    · exact .inl ⟨rfl, by rintro _ _ e ⟨⟩; simp [hr]⟩
    · exact .inl ⟨rfl, by rintro _ _ e ⟨⟩; simp [hr]⟩
    · exact .inr ⟨a, d, e, rfl, hr, rfl⟩
  | _ => exact .inl ⟨((exec_effect h).logs_of_not_bus nofun nofun).2, nofun⟩

/-! ### The invariant of a run -/

/-- Every operation that completes keeps the invariant. -/
theorem exec_keeps_inv (hs : s.Inv) (h : exec i s = .next t) : t.Inv := by
  obtain ⟨hwf, hlen, hpos, hlegal, hmark⟩ := hs
  have he := exec_effect h
  have hunit := he.unit_cases
  unfold State.Inv
  rw [he.cfg_eq, he.units_length]
  refine ⟨hwf, hlen, fun u hu => ?_, fun u hu => ?_, fun u hu hstarted => ?_⟩
  · rcases hunit u with hsame | ⟨-, hchange⟩
    · exact hsame ▸ hpos u hu
    · exact hchange.pos_lt (hpos u hu)
  · rcases hunit u with hsame | ⟨-, hchange⟩
    · exact hsame ▸ hlegal u hu
    · exact hchange.req_legal (hlegal u hu)
  · have hcases : (s.unit u).req.started = true
        ∨ i.advances u = true ∧ (((s.unit u).rotate (s.cfg.bpbOf u)).arrived).isSome = true := by
      rcases hunit u with hsame | ⟨-, hchange⟩
      · exact .inl (hsame ▸ hstarted)
      · exact hchange.started hstarted
    rcases hcases with hbefore | ⟨hadv, harrived⟩
    · exact exec_keeps_mark h (hmark u hu hbefore)
    · exact exec_marks_arrival h hu hadv harrived

/-- A step that answers a next state idles, or runs one operation with its record taken (R6, R36). -/
theorem step_next (h : step s = .next t) : t = s ∨ ∃ i rest, exec i (s.taken rest) = .next t := by
  unfold step State.takeNext at h
  split at h
  · split at h
    · exact .inl (Host.Outcome.next.inj h).symm
    · split at h
      · exact absurd h nofun
      · exact .inr ⟨_, _, h⟩
  · exact absurd h nofun

end

/-! ### The obligations of 10_state.md -/

/-- Settles O48: a step idles or runs one operation, and each of the five ways an operation can touch a unit keeps the
position and the request in their bounds; a start sets the mark. -/
theorem stepKeepsTheInvariant : Obligations.StepKeepsTheInvariant := by
  intro s t hs h
  rcases step_next h with rfl | ⟨i, rest, hexec⟩
  · exact hs
  · exact exec_keeps_inv (s := s.taken rest) hs hexec

/-- Settles O31, by the Exchange's routes for BR and BW, and the frame of every other operation. -/
theorem logsGrowOnlyOnTheBus : Obligations.LogsGrowOnlyOnTheBus :=
  fun _ _ _ _ h => ⟨exec_diag h, exec_extLog h⟩

/-- Settles O37: the mark after an operation is the one its list of advances leaves. -/
theorem refusalMarkIsStickyAndSetOnlyByAStart : Obligations.RefusalMarkIsStickyAndSetOnlyByAStart :=
  fun _ _ _ h => ⟨exec_keeps_mark h, exec_mark_cause h⟩

/-- Settles O41, by the five ways a unit is touched. -/
theorem linesChangeOnlyByTheirWriters : Obligations.LinesChangeOnlyByTheirWriters :=
  fun _ _ _ _ X _ h hne => (unitChange_of_field_ne (fun d => d.line X) h hne).line_writer hne

/-- Settles O42, by the five ways a unit is touched. -/
theorem positionChangesOnlyByAdvanceAndReset : Obligations.PositionChangesOnlyByAdvanceAndReset :=
  fun _ _ _ _ _ h hne => (unitChange_of_field_ne DrumUnit.pos h hne).pos_writer hne

/-- Settles O43, by the five ways a unit is touched. -/
theorem attachedChangesOnlyByTheHost : Obligations.AttachedChangesOnlyByTheHost :=
  fun _ _ _ _ _ h hne => (unitChange_of_field_ne DrumUnit.attached h hne).attached_writer hne

/-- Settles O44, by the five ways a unit is touched. -/
theorem requestChangesOnlyByDaWriteAdvanceAndReset : Obligations.RequestChangesOnlyByDaWriteAdvanceAndReset :=
  fun _ _ _ _ _ h hne => (unitChange_of_field_ne DrumUnit.req h hne).req_writer hne

/-- Settles O45: an operation that touches a unit is directed at no other. -/
theorem operationOnOneUnitLeavesTheOthers : Obligations.OperationOnOneUnitLeavesTheOthers := by
  intro i s t u v _ h hdir hne
  rcases (exec_effect h).unit_cases v with hsame | ⟨honly, -⟩
  · exact hsame
  · exact absurd (honly u hdir).symm hne

end Sys2Proof.Machine

namespace Sys2Proof.Machine

/-! ## Order of operations and reads (20_memory.md): a step takes one record, a read repeats its datum

A read answers one datum and changes nothing else (`exec_of_reads`, `exec_br_drum`), and what it answers does not depend on
the datum returned before it (`exec_answer_of_reads`, `exec_br_answer_of_drum`): so the same read again answers the same. -/

section

variable {i : Instr} {s : State} {u : UnitNo} {r : LineOperand} {X : Line} {a : RealAddr} {v : Nat}

/-! ### The datum returned before is read by nothing (R37) -/

@[simp] theorem State.answer_answer (s : State) (w x : Data) : (s.answer w).answer x = s.answer x := rfl

@[simp] theorem State.vxRead_answer (s : State) (w : Data) (v : Nat) (p : VxAddr) :
    (s.answer w).vxRead v p = s.vxRead v p := State.vxRead_congr s (s.answer w) v p rfl rfl

@[simp] theorem State.drumRead_answer (s : State) (w : Data) (v : Nat) (off : Offset) :
    (s.answer w).drumRead v off = s.drumRead v off := by
  simp [State.drumRead]

@[simp] theorem State.examine_answer (s : State) (w : Data) (v : Nat) (X : Line) :
    (s.answer w).examine v X = s.examine v X := by
  cases X <;> rfl

@[simp] theorem readLine_answer (w : Data) : readLine (s.answer w) X u r = readLine s X u r := by
  simp [readLine, onLine, onUnit]

@[simp] theorem examineLine_answer (w : Data) : examineLine (s.answer w) X u = examineLine s X u := by
  simp [examineLine, onUnit]

/-- A unit-level read, an examine or a RegisterFile read does what it would do after any other datum. -/
theorem exec_answer_of_reads (hi : i.reads = true) (w : Data) : exec i (s.answer w) = exec i s := by
  cases i with
  | vrDa u r | vrSa u r | vrCa u r | vrDs u r | vrCp u r => exact readLine_answer w
  | vrNone u r => rfl
  | examDa u | examSa u | examCa u | examDs u | examCp u => exact examineLine_answer w
  | rfRead rf b l => simp [exec, execRfRead, onFile]
  | _ => simp [Instr.reads] at hi

/-! ### A read answers a datum and changes nothing else (R57, R69, R72, R77) -/

/-- A unit-level read of a line, well-formed. -/
theorem readLine_answers (h : (s.cfg.hasUnit u && r.names s.cfg X) = true) :
    ∃ w, readLine s X u r = .next (s.answer w) := by
  obtain ⟨hu, hr⟩ := Bool.and_eq_true_iff.mp h
  obtain ⟨p, -, he⟩ := readLine_eq (of_decide_eq_true hu) hr
  exact ⟨_, he⟩

/-- A host examine of a line, well-formed. -/
theorem examineLine_answers (h : s.cfg.hasUnit u = true) : ∃ w, examineLine s X u = .next (s.answer w) :=
  ⟨_, examineLine_eq (of_decide_eq_true h)⟩

/-- Every well-formed unit-level read, examine or RegisterFile read answers a datum and changes nothing else. -/
theorem exec_of_reads (hi : i.reads = true) (hwf : i.wf s.cfg = true) : ∃ w, exec i s = .next (s.answer w) := by
  cases i with
  | vrDa u r | vrSa u r | vrCa u r | vrDs u r | vrCp u r => exact readLine_answers hwf
  | vrNone u r =>
    obtain ⟨hu, hr⟩ := Bool.and_eq_true_iff.mp hwf
    exact ⟨0, exec_vrNone (of_decide_eq_true hu) hr⟩
  | examDa u | examSa u | examCa u | examDs u | examCp u => exact examineLine_answers hwf
  | rfRead rf b l => exact ⟨_, exec_rfRead (of_decide_eq_true hwf)⟩
  | _ => simp [Instr.reads] at hi

/-- A bus read routed to a drum unit answers what the unit's offset reads, resolved or not (R72, R74). -/
theorem exec_br_drum (h : s.cfg.routeOf (addrUnit a) = .drum v) :
    exec (.br a) s = .next (s.answer (s.drumRead v (addrOffset a))) := by
  simp [exec, execBr, State.busRead, h]

/-- A bus read routed to a drum unit does what it would do after any other datum. -/
theorem exec_br_answer_of_drum (h : s.cfg.routeOf (addrUnit a) = .drum v) (w : Data) :
    exec (.br a) (s.answer w) = exec (.br a) s := by
  rw [exec_br_drum h, exec_br_drum (s := s.answer w) h, State.drumRead_answer, State.answer_answer]

/-! ### Taking the next operation (R36, R40) -/

/-- Under a well-formed configuration a step runs what the head record decodes to, on the state with that record taken. -/
theorem step_of_decode {w : OpWord} {rest : List OpWord} (hwf : s.cfg.wf = true) (hs : s.issued = w :: rest)
    (hw : decode w = .ok i) : step s = exec i (s.taken rest) := by
  simp [step, hwf, State.takeNext, hs, fetchOp, hw]

end

/-! ### The obligations of 20_memory.md -/

/-- Settles O46: a read answers some datum and changes nothing else, and the read after it, which does not see that datum,
does the same. -/
theorem readsChangeNothingAndRepeat : Obligations.ReadsChangeNothingAndRepeat := by
  intro i s _ hi hwf
  rcases hi with hreads | ⟨a, v, rfl, hroute⟩
  · obtain ⟨w, hw⟩ := exec_of_reads hreads hwf
    exact ⟨w, hw, (exec_answer_of_reads hreads w).trans hw⟩
  · have hw := exec_br_drum hroute
    exact ⟨_, hw, (exec_br_answer_of_drum hroute _).trans hw⟩

/-- Settles O5, by the case of a step with a record to take that decodes. -/
theorem stepRunsTheDecodedOperation : Obligations.StepRunsTheDecodedOperation :=
  fun _ _ _ _ hwf hs hw => step_of_decode hwf hs hw

end Sys2Proof.Machine

namespace Sys2Proof

/-! ## Encodings (30_encoding.md): a word and its operation, each from the other

The word and the record carry the same fields (`OpRecord.ofWord_toWord`, `OpRecord.toWord_ofWord`), so both round trips
are round trips of records. From operation to record and back it is one lemma a constructor (Laws/PerInstr.lean). From
record to operation and back the decoder's rows fall into the shapes of its guards: a guard that answers an operation has
fixed every field of the record, which is then the one the encoder writes. -/

section

variable {r : OpRecord} {i : Instr} {clear : Bool} {op : BitVec 8} {d : Data}

/-! ### From the operation to its record and back -/

/-- The decoder on fields gives back every operation the encoder wrote (R52). -/
theorem decodeRecord_encodeRecord (i : Instr) : decodeRecord (encodeRecord i) = .ok i :=
  match i with
  | .br a => Laws.RecordRoundTrip.br a
  | .bw a d => Laws.RecordRoundTrip.bw a d
  | .vrDa u a => Laws.RecordRoundTrip.vrDa u a
  | .vrSa u a => Laws.RecordRoundTrip.vrSa u a
  | .vrCa u a => Laws.RecordRoundTrip.vrCa u a
  | .vrDs u a => Laws.RecordRoundTrip.vrDs u a
  | .vrCp u a => Laws.RecordRoundTrip.vrCp u a
  | .vrNone u a => Laws.RecordRoundTrip.vrNone u a
  | .vwDa u a d => Laws.RecordRoundTrip.vwDa u a d
  | .vwSa u a d => Laws.RecordRoundTrip.vwSa u a d
  | .vwCa u a d => Laws.RecordRoundTrip.vwCa u a d
  | .vwDs u a d => Laws.RecordRoundTrip.vwDs u a d
  | .vwCp u a d => Laws.RecordRoundTrip.vwCp u a d
  | .vwNone u a d => Laws.RecordRoundTrip.vwNone u a d
  | .tick => Laws.RecordRoundTrip.tick
  | .adv u => Laws.RecordRoundTrip.adv u
  | .reset => Laws.RecordRoundTrip.reset
  | .attach u => Laws.RecordRoundTrip.attach u
  | .detach u => Laws.RecordRoundTrip.detach u
  | .depDa u v => Laws.RecordRoundTrip.depDa u v
  | .depSa u v => Laws.RecordRoundTrip.depSa u v
  | .depCa u v => Laws.RecordRoundTrip.depCa u v
  | .depDs u v => Laws.RecordRoundTrip.depDs u v
  | .examDa u => Laws.RecordRoundTrip.examDa u
  | .examSa u => Laws.RecordRoundTrip.examSa u
  | .examCa u => Laws.RecordRoundTrip.examCa u
  | .examDs u => Laws.RecordRoundTrip.examDs u
  | .examCp u => Laws.RecordRoundTrip.examCp u
  | .rfRead rf b l => Laws.RecordRoundTrip.rfRead rf b l
  | .rfWrite rf b l d => Laws.RecordRoundTrip.rfWrite rf b l d

/-- Every operation survives its word. -/
theorem decode_encode (i : Instr) : decode (encode i) = .ok i :=
  (congrArg decodeRecord (OpRecord.ofWord_toWord _)).trans (decodeRecord_encodeRecord i)

/-! ### The unused fields (log 3) -/

@[simp] theorem OpRecord.noUnit_iff : r.noUnit = true ↔ r.unit = 0 := beq_iff_eq
@[simp] theorem OpRecord.noPair_iff : r.noPair = true ↔ r.line = 0 ∧ r.block = 0 := by simp [OpRecord.noPair]
@[simp] theorem OpRecord.noForm_iff : r.noForm = true ↔ r.pairForm = 0 ∧ r.spare = 0 := by simp [OpRecord.noForm]
@[simp] theorem OpRecord.noAddr_iff : r.noAddr = true ↔ r.addr = 0 := beq_iff_eq
@[simp] theorem OpRecord.noData_iff : r.noData = true ↔ r.data = 0 := beq_iff_eq

/-- Two records with the same eight fields are one record. -/
theorem OpRecord.eq_of_fields {q : OpRecord} (hopsel : q.opsel = r.opsel) (hunit : q.unit = r.unit)
    (hline : q.line = r.line) (hblock : q.block = r.block) (hform : q.pairForm = r.pairForm)
    (hspare : q.spare = r.spare) (haddr : q.addr = r.addr) (hdata : q.data = r.data) : q = r := by
  cases q
  cases r
  simp_all

/-! ### From a record to its operation and back, guard by guard -/

/-- A row of VR or VW that answers an operation has fixed the record: it is the one of a unit-level access. -/
theorem OpRecord.encodeRecord_of_withLine {f : UnitNo → LineOperand → Instr} (h : r.withLine clear f = .ok i)
    (henc : ∀ u a, encodeRecord (f u a) = .vx op u a d) (hop : r.opsel.toNat = op.toNat)
    (hclear : clear = true → r.addr = 0 ∧ r.data = d) : encodeRecord i = r := by
  obtain ⟨hc, u, a, hunit, rfl, hspare, hpair⟩ := OpRecord.withLine_ok h
  obtain ⟨haddr, rfl⟩ := hclear hc
  have hopsel : op = r.opsel := (BitVec.eq_of_toNat_eq hop).symm
  rw [henc]
  rcases hpair with ⟨rfl, hform, hline, hblock⟩ | ⟨rfl, hform⟩
  · exact eq_of_fields hopsel hunit.symm hline.symm hblock.symm hform.symm hspare.symm haddr.symm rfl
  · exact eq_of_fields hopsel hunit.symm rfl rfl hform.symm hspare.symm haddr.symm rfl

/-- A row with the operand `u` and no pair that answers an operation has fixed the record. -/
theorem OpRecord.encodeRecord_of_withUnit {f : UnitNo → Instr} (h : r.withUnit clear f = .ok i)
    (henc : ∀ u, encodeRecord (f u) = .onUnit op u d) (hop : r.opsel.toNat = op.toNat)
    (hclear : clear = true → r.line = 0 ∧ r.block = 0 ∧ r.pairForm = 0 ∧ r.spare = 0 ∧ r.addr = 0 ∧ r.data = d) :
    encodeRecord i = r := by
  obtain ⟨hc, u, hunit, rfl⟩ := OpRecord.withUnit_ok h
  obtain ⟨hline, hblock, hform, hspare, haddr, rfl⟩ := hclear hc
  have hopsel : op = r.opsel := (BitVec.eq_of_toNat_eq hop).symm
  rw [henc]
  exact eq_of_fields hopsel hunit.symm hline.symm hblock.symm hform.symm hspare.symm haddr.symm rfl

/-- A row without the operand `u` that answers an operation has fixed the record: the operation carries the fields it
uses, and the others are clear. -/
theorem OpRecord.encodeRecord_of_decodeWhen {j : Instr} (h : decodeWhen clear j = .ok i)
    (hop : r.opsel.toNat = (encodeRecord j).opsel.toNat)
    (hclear : clear = true → (encodeRecord j).unit = r.unit ∧ (encodeRecord j).line = r.line
      ∧ (encodeRecord j).block = r.block ∧ (encodeRecord j).pairForm = r.pairForm ∧ (encodeRecord j).spare = r.spare
      ∧ (encodeRecord j).addr = r.addr ∧ (encodeRecord j).data = r.data) : encodeRecord i = r := by
  obtain ⟨hc, rfl⟩ := decodeWhen_ok h
  obtain ⟨hunit, hline, hblock, hform, hspare, haddr, hdata⟩ := hclear hc
  exact eq_of_fields (BitVec.eq_of_toNat_eq hop).symm hunit hline hblock hform hspare haddr hdata

/-- A record that decodes is the one the encoder writes for what it decodes to, row by row of the decoder (R52, R53). -/
theorem encodeRecord_of_decodeRecord (h : decodeRecord r = .ok i) : encodeRecord i = r := by
  unfold decodeRecord at h
  split at h
  -- BR, BW
  iterate 2 next hop =>
    exact OpRecord.encodeRecord_of_decodeWhen h hop (by simp +contextual [encodeRecord, OpRecord.bare])
  -- VR, VW
  iterate 12 next hop => exact OpRecord.encodeRecord_of_withLine h (fun _ _ => rfl) hop (by simp)
  -- TICK, ADV
  · next hop => exact OpRecord.encodeRecord_of_decodeWhen h hop (by simp +contextual [encodeRecord, OpRecord.bare])
  · next hop => exact OpRecord.encodeRecord_of_withUnit h (fun _ => rfl) hop (by simp +contextual)
  -- RESET, ATTACH, DETACH
  · next hop => exact OpRecord.encodeRecord_of_decodeWhen h hop (by simp +contextual [encodeRecord, OpRecord.bare])
  iterate 2 next hop => exact OpRecord.encodeRecord_of_withUnit h (fun _ => rfl) hop (by simp +contextual)
  -- DEP, EXAM
  iterate 9 next hop => exact OpRecord.encodeRecord_of_withUnit h (fun _ => rfl) hop (by simp +contextual)
  -- RF.READ, RF.WRITE
  iterate 2 next hop =>
    exact OpRecord.encodeRecord_of_decodeWhen h hop (by simp +contextual [encodeRecord, OpRecord.atPair, OpRecord.bare])
  -- no row
  · exact absurd h nofun

/-- A word that decodes is the word of what it decodes to. -/
theorem encode_of_decode {w : OpWord} (h : decode w = .ok i) : encode i = w := by
  rw [encode, encodeRecord_of_decodeRecord h, OpRecord.toWord_ofWord]

/-! ### Selectors outside the table (R53) -/

/-- The 30 selectors of R52, in its order. -/
def selectorTable : List Nat :=
  [0x10, 0x11, 0x20, 0x21, 0x22, 0x23, 0x24, 0x2F, 0x30, 0x31, 0x32, 0x33, 0x34, 0x3F, 0x40, 0x41, 0x50, 0x51, 0x52,
   0x60, 0x61, 0x62, 0x63, 0x70, 0x71, 0x72, 0x73, 0x74, 0x80, 0x81]

/-- Each row of the decoder is a selector of the table, so outside it only the last row is left. -/
theorem decodeRecord_of_not_mem_selectorTable (h : r.opsel.toNat ∉ selectorTable) :
    decodeRecord r = .error .noSuchSelector := by
  unfold decodeRecord
  split
  iterate 30 next hop => exact absurd (hop ▸ by decide) h
  · rfl

end

end Sys2Proof

namespace Sys2Proof.Machine

section

variable {i : Instr} {s : State} {u : UnitNo} {r : LineOperand} {X : Line}

/-- Under a well-formed configuration a step refuses a head record that does not decode, for the decoder's reason. -/
theorem step_of_decode_error {w : OpWord} {rest : List OpWord} {why : DecodeError} (hwf : s.cfg.wf = true)
    (hs : s.issued = w :: rest) (hw : decode w = .error why) : step s = .refused (.undecodable why) := by
  simp [step, hwf, State.takeNext, hs, fetchOp, hw]

/-! ### What an operation asks before it acts (R52, R53) -/

/-- The five ways an operation is guarded: its outcome, with the operands it checks and what makes it one of the closed
set. -/
inductive Guarded (i : Instr) (s : State) : Result → Prop where
  /-- No operand to check. -/
  | unguarded (t : State) (hu : i.unitOperand = none) (hwf : i.wf s.cfg = true) : Guarded i s (.next t)
  /-- A unit. -/
  | unit (u : UnitNo) (f : Nat → State) (hu : i.unitOperand = some u) (hwf : i.wf s.cfg = s.cfg.hasUnit u) :
      Guarded i s (onUnit s u fun v => .next (f v))
  /-- A unit, and a pair that names line X. -/
  | line (X : Line) (u : UnitNo) (r : LineOperand) (f : Nat → VxAddr → State) (hu : i.unitOperand = some u)
      (hwf : i.wf s.cfg = (s.cfg.hasUnit u && r.names s.cfg X)) : Guarded i s (onLine s X u r fun v a => .next (f v a))
  /-- A unit, and a pair that names no line. -/
  | unmapped (u : UnitNo) (r : LineOperand) (t : State) (hu : i.unitOperand = some u)
      (hwf : i.wf s.cfg = (s.cfg.hasUnit u && r.unmapped s.cfg)) : Guarded i s (onUnmapped s u r (.next t))
  /-- A RegisterFile. -/
  | file (rf : BitVec 8) (f : Nat → State) (hu : i.unitOperand = none)
      (hwf : i.wf s.cfg = decide (rf.toNat < s.cfg.nDrums)) : Guarded i s (onFile s rf fun v => .next (f v))

theorem readLine_guarded (hu : i.unitOperand = some u) (hwf : i.wf s.cfg = (s.cfg.hasUnit u && r.names s.cfg X)) :
    Guarded i s (readLine s X u r) :=
  .line X u r (fun v a => s.answer (s.vxRead v a)) hu hwf

theorem writeLine_guarded {d : Data} (hu : i.unitOperand = some u)
    (hwf : i.wf s.cfg = (s.cfg.hasUnit u && r.names s.cfg X)) : Guarded i s (writeLine s X u r d) :=
  .line X u r (fun v a => (s.vxWrite v a d).silent) hu hwf

theorem depositLine_guarded {d : Data} (hu : i.unitOperand = some u) (hwf : i.wf s.cfg = s.cfg.hasUnit u) :
    Guarded i s (depositLine s X u d) :=
  .unit u (fun v => (s.deposit v X d).silent) hu hwf

theorem examineLine_guarded (hu : i.unitOperand = some u) (hwf : i.wf s.cfg = s.cfg.hasUnit u) :
    Guarded i s (examineLine s X u) :=
  .unit u (fun v => s.answer (s.examine v X)) hu hwf

/-- Every operation is guarded in the way its operands ask. -/
theorem exec_guarded (i : Instr) (s : State) : Guarded i s (exec i s) := by
  cases i with
  | br | bw | tick | reset => exact .unguarded _ rfl rfl
  | vrDa | vrSa | vrCa | vrDs | vrCp => exact readLine_guarded rfl rfl
  | vwDa | vwSa | vwCa | vwDs | vwCp => exact writeLine_guarded rfl rfl
  | vrNone u r => exact .unmapped u r (s.answer 0) rfl rfl
  | vwNone u r d => exact .unmapped u r s.silent rfl rfl
  | adv u => exact .unit u (fun v => (s.advance v).silent) rfl rfl
  | attach u => exact .unit u (fun v => (s.setAttached v true).silent) rfl rfl
  | detach u => exact .unit u (fun v => (s.setAttached v false).silent) rfl rfl
  | depDa | depSa | depCa | depDs => exact depositLine_guarded rfl rfl
  | examDa | examSa | examCa | examDs | examCp => exact examineLine_guarded rfl rfl
  | rfRead rf b l => exact .file rf (fun v => s.answer (s.vxRead v ⟨b, l⟩)) rfl rfl
  | rfWrite rf b l d => exact .file rf (fun v => (s.vxWrite v ⟨b, l⟩ d).silent) rfl rfl

/-- An operation with a unit that does not exist is refused, whatever else it asks (R53). -/
theorem Guarded.noSuchUnit {o : Result} (h : Guarded i s o) (hu : i.unitOperand = some u)
    (hn : s.cfg.nDrums ≤ u.toNat) : o = .refused .noSuchUnit := by
  cases h with
  | unguarded _ hnone | file _ _ hnone => exact absurd (hu.symm.trans hnone) nofun
  | unit v _ hv | line _ v _ _ hv | unmapped v _ _ hv =>
    obtain rfl : u = v := Option.some.inj (hu.symm.trans hv)
    exact onUnit_refused hn

/-! ### When exec completes, and why it refuses (R52, R53, R97) -/

/-- The outcome of an operation, by whether it is in the closed set: a next state, or a refusal for one of the three
reasons. -/
inductive Answers : Bool → Result → Prop where
  | completes (t : State) : Answers true (.next t)
  | refuses {why : Refusal} (h : why = .noSuchUnit ∨ why = .selectorMismatch ∨ why = .noSuchRegisterFile) :
      Answers false (.refused why)

theorem onUnit_answers {b : Bool} {k : Nat → Result} (hk : Answers b (k u.toNat)) :
    Answers (s.cfg.hasUnit u && b) (onUnit s u k) := by
  unfold Config.hasUnit
  by_cases hu : u.toNat < s.cfg.nDrums
  · rwa [onUnit_eq hu, decide_eq_true hu, Bool.true_and]
  · rw [onUnit_refused (Nat.le_of_not_lt hu), decide_eq_false hu, Bool.false_and]
    exact .refuses (.inl rfl)

theorem onLine_answers (f : Nat → VxAddr → State) :
    Answers (s.cfg.hasUnit u && r.names s.cfg X) (onLine s X u r fun v a => .next (f v a)) := by
  refine onUnit_answers ?_
  unfold LineOperand.names
  cases r.locate s.cfg X with
  | none => exact .refuses (.inr (.inl rfl))
  | some a => exact .completes _

theorem onUnmapped_answers (t : State) : Answers (s.cfg.hasUnit u && r.unmapped s.cfg) (onUnmapped s u r (.next t)) := by
  refine onUnit_answers ?_
  cases r.unmapped s.cfg with
  | false => exact .refuses (.inr (.inl rfl))
  | true => exact .completes _

theorem onFile_answers {rf : BitVec 8} (f : Nat → State) :
    Answers (decide (rf.toNat < s.cfg.nDrums)) (onFile s rf fun v => .next (f v)) := by
  by_cases h : rf.toNat < s.cfg.nDrums
  · rw [onFile_eq h, decide_eq_true h]
    exact .completes _
  · rw [onFile, if_neg h, decide_eq_false h]
    exact .refuses (.inr (.inr rfl))

/-- A guarded operation completes if all it asks holds, and else it is refused for what fails first. -/
theorem Guarded.answers {o : Result} (h : Guarded i s o) : Answers (i.wf s.cfg) o := by
  cases h with
  | unguarded t _ hwf => rw [hwf]; exact .completes t
  | unit u f _ hwf => rw [hwf, ← Bool.and_true (s.cfg.hasUnit u)]; exact onUnit_answers (.completes _)
  | line X u r f _ hwf => rw [hwf]; exact onLine_answers f
  | unmapped u r t _ hwf => rw [hwf]; exact onUnmapped_answers t
  | file rf f _ hwf => rw [hwf]; exact onFile_answers f

theorem Answers.refused_iff {b : Bool} {o : Result} (h : Answers b o) : b = false ↔ ∃ why, o = .refused why := by
  cases h with
  | completes t => exact ⟨nofun, nofun⟩
  | refuses _ => exact ⟨fun _ => ⟨_, rfl⟩, fun _ => rfl⟩

theorem Answers.reason {b : Bool} {why : Refusal} (h : Answers b (.refused why)) :
    why = .noSuchUnit ∨ why = .selectorMismatch ∨ why = .noSuchRegisterFile := by
  cases h
  assumption

end

/-! ### The obligations of 30_encoding.md -/

/-- Settles O1: the word keeps the record, and the decoder's row of each constructor reads back the encoder's. -/
theorem encodeThenDecodeGivesTheOperation : Obligations.EncodeThenDecodeGivesTheOperation := decode_encode

/-- Settles O2: a row that answers has fixed every field of the record, and the record keeps the word. -/
theorem decodedWordIsTheEncoding : Obligations.DecodedWordIsTheEncoding := fun _ _ => encode_of_decode

/-- Settles O3, by the decoder's last row. -/
theorem selectorOutsideTheTableIsRefused : Obligations.SelectorOutsideTheTableIsRefused := by
  intro w hw
  have hdec : decode w = .error .noSuchSelector := decodeRecord_of_not_mem_selectorTable hw
  exact ⟨hdec, fun _ _ hwf hs => step_of_decode_error hwf hs hdec⟩

/-- Settles O8, by the guard every operation with an operand `u` begins with. -/
theorem unitAtOrAboveNDrumsIsRefused : Obligations.UnitAtOrAboveNDrumsIsRefused :=
  fun i s _ hu hn => (exec_guarded i s).noSuchUnit hu hn

/-- Settles O9: an operation of the closed set completes, and any other is refused by the first of its guards that fails. -/
theorem refusedExactlyOutsideTheClosedSet : Obligations.RefusedExactlyOutsideTheClosedSet :=
  fun i s => ⟨(exec_guarded i s).answers.refused_iff, fun _ h => (h ▸ exec_guarded i s).answers.reason⟩

/-- Settles O4, by running the decoder on each word. -/
theorem writtenOutWordsDecode : Obligations.WrittenOutWordsDecode := ⟨rfl, rfl, rfl, rfl, rfl, rfl, rfl, rfl⟩

end Sys2Proof.Machine

namespace Sys2Proof

/-! ## The RegisterFile (40_register_file.md): the write kinds, the generic read and write, deposit and examine

The write kinds hold of every line descriptor. Under check 1 of R67 the mask already keeps within the width, so the cut of
R64 can be left out of each formula (`LineDesc.cut_and_mask`), and what is left is read bit by bit. The operations on a
unit's RegisterFile are the shared ones: `State.vxRead_eq` and `State.vxWrite_eq` say them pair by pair, and a deposit and
an examine are the raw store and the raw load of one line. -/

section

variable {D : LineDesc} {old d v : Data} {k : Nat}

/-! ### The cut of R64 -/

/-- A value within the width is one with no bit at or above it. -/
theorem LineDesc.cut_eq_self_iff : D.cut v = v ↔ ∀ k, D.width ≤ k → v.getLsbD k = false := by
  constructor
  · intro hcut k hk
    rw [← hcut, D.getLsbD_cut, decide_eq_false (Nat.not_lt.mpr hk), Bool.and_false, Bool.false_and]
  · intro hbits
    refine BitVec.eq_of_getLsbD_eq fun k hk => ?_
    rw [D.getLsbD_cut, decide_eq_true hk, Bool.true_and]
    by_cases hw : k < D.width
    · rw [decide_eq_true hw, Bool.true_and]
    · rw [hbits k (Nat.le_of_not_lt hw), Bool.and_false]

/-- Cutting a cut datum changes nothing. -/
@[simp] theorem LineDesc.cut_cut (D : LineDesc) (d : Data) : D.cut (D.cut d) = D.cut d := by
  refine LineDesc.cut_eq_self_iff.mpr fun k hk => ?_
  rw [D.getLsbD_cut, decide_eq_false (Nat.not_lt.mpr hk), Bool.and_false, Bool.false_and]

/-- A write sees its datum cut to the width, whatever the kind (R64). -/
theorem LineDesc.newValue_cut (D : LineDesc) (old d : Data) : D.newValue old (D.cut d) = D.newValue old d := by
  simp only [LineDesc.newValue, LineDesc.cut_cut]

/-- Check 2 of R67: the fixed bits are within the width. -/
theorem LineDesc.cut_fixed_of_fixedOk {F : Data} (h : D.fixedOk = true) (hkind : D.kind = .repack F) :
    D.cut F = F := by
  rw [LineDesc.fixedOk, hkind, Bool.and_eq_true] at h
  exact beq_iff_eq.mp h.1

/-- No bit at or above the width reaches the stored value, if none stands in the old value (R64). -/
theorem LineDesc.getLsbD_newValue_of_width_le (hfixed : D.fixedOk = true) (hold : D.cut old = old)
    (hk : D.width ≤ k) : (D.newValue old d).getLsbD k = false := by
  have hold_k : old.getLsbD k = false := LineDesc.cut_eq_self_iff.mp hold k hk
  have hd_k : (D.cut d).getLsbD k = false := LineDesc.cut_eq_self_iff.mp (D.cut_cut d) k hk
  cases hkind : D.kind with
  | merge => rw [D.newValue_merge old d hkind]; simp [hold_k, hd_k]
  | w1c => rw [D.newValue_w1c old d hkind]; simp [hold_k]
  | repack F =>
    have hF_k : F.getLsbD k = false :=
      LineDesc.cut_eq_self_iff.mp (LineDesc.cut_fixed_of_fixedOk hfixed hkind) k hk
    rw [D.newValue_repack F old d hkind]
    simp [hd_k, hF_k]

/-! ### One bit of a written line -/

/-- MERGE, bit by bit (R59). -/
theorem LineDesc.getLsbD_newValue_merge (hkind : D.kind = .merge) (hw : D.widthOk = true) (hk : k < 64) :
    (D.newValue old d).getLsbD k = if D.writeMask.getLsbD k then d.getLsbD k else old.getLsbD k := by
  rw [D.newValue_merge old d hkind, D.cut_and_mask d hw]
  simp only [BitVec.getLsbD_or, BitVec.getLsbD_and, BitVec.getLsbD_not, decide_eq_true hk, Bool.true_and]
  cases D.writeMask.getLsbD k <;> simp

/-- W1C, bit by bit (R60). -/
theorem LineDesc.getLsbD_newValue_w1c (hkind : D.kind = .w1c) (hw : D.widthOk = true) (hk : k < 64) :
    (D.newValue old d).getLsbD k = (old.getLsbD k && !(D.writeMask.getLsbD k && d.getLsbD k)) := by
  rw [D.newValue_w1c old d hkind, D.cut_and_mask d hw, Bool.and_comm (D.writeMask.getLsbD k)]
  simp [hk]

/-! ### What a MERGE line makes of particular masks and data -/

/-- Where no bit is writable, MERGE changes nothing (R59). -/
theorem LineDesc.newValue_merge_of_empty_mask (hkind : D.kind = .merge) (hw : D.widthOk = true)
    (hmask : D.writeMask = 0) : D.newValue old d = old := by
  refine BitVec.eq_of_getLsbD_eq fun k hk => ?_
  rw [LineDesc.getLsbD_newValue_merge hkind hw hk, hmask]
  simp

/-- Where every bit of the width is writable, MERGE stores the datum cut to the width (R59). -/
theorem LineDesc.newValue_merge_of_full_mask (hkind : D.kind = .merge) (hw : D.widthOk = true)
    (hmask : D.writeMask = D.cut (BitVec.allOnes 64)) (hold : D.cut old = old) : D.newValue old d = D.cut d := by
  refine BitVec.eq_of_getLsbD_eq fun k hk => ?_
  rw [LineDesc.getLsbD_newValue_merge hkind hw hk, hmask, D.getLsbD_cut, D.getLsbD_cut, BitVec.getLsbD_allOnes]
  by_cases hkw : k < D.width
  · simp [hk, hkw]
  · simp [hkw, LineDesc.cut_eq_self_iff.mp hold k (Nat.le_of_not_lt hkw)]

/-- Writing the stored value back to a MERGE line changes nothing (R59). -/
theorem LineDesc.newValue_merge_self (hkind : D.kind = .merge) (hw : D.widthOk = true) : D.newValue old old = old := by
  refine BitVec.eq_of_getLsbD_eq fun k hk => ?_
  rw [LineDesc.getLsbD_newValue_merge hkind hw hk, ite_self]

/-- Without a transform a read shows the stored value (R57). -/
theorem LineDesc.readValue_of_no_transform (h : D.readTransform = none) : D.readValue v = v := by
  rw [LineDesc.readValue, h]

end

end Sys2Proof

namespace Sys2Proof.Machine

section

variable {s t : State} {u : UnitNo} {rf : BitVec 8} {X : Line} {i j : Instr}

/-! ### A step with nothing to run (R6, R67) -/

theorem step_of_not_wf (h : s.cfg.wf = false) : step s = .refused .illFormedConfiguration := by
  simp [step, h]

theorem step_of_nothing_issued (hwf : s.cfg.wf = true) (h : s.issued = []) : step s = .next s := by
  simp [step, hwf, State.takeNext, h]

/-! ### The current-positions line, read or examined (R24, R49) -/

/-- A read of a pair of CP returns the view: it fits the line's width. -/
theorem State.Inv.vxRead_cp {v : Nat} {p : VxAddr} (hs : s.Inv) (hv : v < s.cfg.nDrums) (hp : s.cfg.lineAt p = some .cp) :
    s.vxRead v p = s.cpValue v := by
  rw [State.vxRead_eq, hp]
  exact hs.cpValue_cut hv

/-- VR.CP returns the view (R87). -/
theorem State.Inv.exec_vrCp_named (hs : s.Inv) (hu : u.toNat < s.cfg.nDrums) :
    exec (.vrCp u .named) s = .next (s.answer (s.cpValue u.toNat)) := by
  obtain ⟨p, hp, hread⟩ := readLine_eq hu (Config.names_of_wf hs.1 .cp)
  rw [hs.vxRead_cp hu hp] at hread
  exact hread

/-! ### Deposit and examine (R68, R69) -/

/-- The examine of a stored line is its raw value (R69). -/
theorem State.examine_of_ne_cp {v : Nat} (hX : X ≠ .cp) : s.examine v X = (s.unit v).line X := by
  cases X with
  | cp => exact absurd rfl hX
  | _ => rfl

/-- What a deposit stored, an examine returns: the line as the deposit left it (R68, R69). -/
theorem State.examine_deposit {v : Nat} {d : Data} (hv : v < s.units.length) (hX : X ≠ .cp) :
    (s.deposit v X d).silent.examine v X = ((s.unit v).setLine X d).line X := by
  rw [State.examine_of_ne_cp hX, State.silent_unit, State.deposit, State.unit_setUnit_same s v _ hv]

/-- A deposit and an examine of the same line in order return the line as the deposit left it (R68, R69). -/
theorem execAll_deposit_examine {d : Data} (hs : s.Inv) (hu : u.toNat < s.cfg.nDrums) (hX : X ≠ .cp)
    (hi : exec i s = depositLine s X u d) (hj : ∀ t, exec j t = examineLine t X u) :
    ∃ t, execAll [i, j] s = .next t ∧ t.result = some (((s.unit u.toNat).setLine X d).line X) := by
  have hdep : exec i s = .next (s.deposit u.toNat X d).silent := hi.trans (depositLine_eq hu)
  have hexam := (hj (s.deposit u.toNat X d).silent).trans (examineLine_eq hu)
  rw [State.examine_deposit (hs.lt_length hu) hX] at hexam
  refine ⟨(s.deposit u.toNat X d).silent.answer (((s.unit u.toNat).setLine X d).line X), ?_, rfl⟩
  simp [execAll, hdep, hexam]

/-- Cutting a datum to `w` bits and widening it again keeps its low `w` bits. -/
theorem setWidth_setWidth_eq_and (d : Data) (w : Nat) :
    (d.setWidth w).setWidth 64 = d &&& (BitVec.allOnes w).setWidth 64 := by
  refine BitVec.eq_of_getLsbD_eq fun k hk => ?_
  simp [BitVec.getLsbD_setWidth, hk, Bool.and_comm]

end

/-! ### The obligations of 40_register_file.md -/

/-- Settles O10: each bit of a MERGE write comes from the datum or from the old value, as the mask says. -/
theorem mergeWriteTakesTheMaskedBits : Obligations.MergeWriteTakesTheMaskedBits := by
  intro D old d hkind hw
  refine ⟨D.newValue_merge old d hkind, fun k hk => LineDesc.getLsbD_newValue_merge hkind hw hk,
    LineDesc.newValue_merge_of_empty_mask hkind hw, LineDesc.newValue_merge_of_full_mask hkind hw,
    fun hnone => ?_, fun k hk hm hread hsame => ?_⟩
  · rw [LineDesc.readValue_of_no_transform hnone, LineDesc.newValue_merge_self hkind hw]
  · have hbit : (D.newValue old (D.readValue old)).getLsbD k = (D.readValue old).getLsbD k := by
      rw [LineDesc.getLsbD_newValue_merge hkind hw hk, if_pos hm]
    exact hread (hbit.symm.trans (congrArg (BitVec.getLsbD · k) hsame))

/-- Settles O11: under the mask the cut of R64 drops out, and the formula reads bit by bit. -/
theorem w1cWriteClearsTheWrittenOnes : Obligations.W1cWriteClearsTheWrittenOnes := by
  intro D old d hkind hw
  have hformula : ∀ x, D.newValue old x = old &&& ~~~(x &&& D.writeMask) := fun x => by
    rw [D.newValue_w1c old x hkind, D.cut_and_mask x hw]
  refine ⟨D.newValue_w1c old d hkind, fun k hk => LineDesc.getLsbD_newValue_w1c hkind hw hk, ?_, ?_, hformula _⟩
  · refine BitVec.eq_of_getLsbD_eq fun k hk => ?_
    rw [LineDesc.getLsbD_newValue_w1c hkind hw hk]
    simp
  · rw [hformula, BitVec.allOnes_and]

/-- Settles O12: the formula names neither the old value nor a bit of the datum outside the mask. -/
theorem repackWriteReplacesTheValue : Obligations.RepackWriteReplacesTheValue := by
  intro D F old old' d d' hkind hw
  refine ⟨D.newValue_repack F old d hkind, fun hd => ?_, ?_⟩
  · rw [D.newValue_repack F old d hkind, D.newValue_repack F old' d' hkind, D.cut_and_mask d hw, D.cut_and_mask d' hw, hd]
  · rw [D.newValue_repack F old d hkind]
    refine BitVec.eq_of_getLsbD_eq fun k _ => ?_
    rw [BitVec.getLsbD_and, BitVec.getLsbD_or]
    cases F.getLsbD k <;> simp

/-- Settles O13: every kind's formula sees the cut datum, and none has a bit above the width to store. -/
theorem writeKeepsWithinTheWidth : Obligations.WriteKeepsWithinTheWidth := by
  intro D old d _ hfixed hold
  have hbits : ∀ k, D.width ≤ k → (D.newValue old d).getLsbD k = false :=
    fun k hk => LineDesc.getLsbD_newValue_of_width_le hfixed hold hk
  exact ⟨(D.newValue_cut old d).symm, LineDesc.cut_eq_self_iff.mpr hbits, hbits⟩

/-- Settles O25, by the line the pair names: the write of each is the shared one. -/
theorem rfWriteAppliesTheKindOfTheLine : Obligations.RfWriteAppliesTheKindOfTheLine := by
  intro s rf b l d _ hrf
  dsimp only
  rw [exec_rfWrite hrf, State.vxWrite_eq]
  rcases s.cfg.lineAt ⟨b, l⟩ with _ | X
  · rfl
  · cases X with
    | da => simp only [DrumUnit.writeLine_da]; rfl
    | sa => simp only [DrumUnit.writeLine_sa]; rfl
    | ca => simp only [DrumUnit.writeLine_ca]; rfl
    | ds => simp only [DrumUnit.writeLine_ds]; rfl
    | cp => simp only [DrumUnit.writeLine_cp, State.setUnit_unit_self]; rfl

/-- Settles O28: the examine returns the line the deposit left, which is the datum cut to the line's width. -/
theorem examineAfterDepositReturnsIt : Obligations.ExamineAfterDepositReturnsIt := by
  intro s u v hs hu
  have h32 : (v.setWidth 32).setWidth 64 = v &&& 0xFFFFFFFF#64 := setWidth_setWidth_eq_and v 32
  have h28 : (v.setWidth 28).setWidth 64 = v &&& 0x0FFFFFFF#64 := setWidth_setWidth_eq_and v 28
  rw [← h32, ← h28]
  exact ⟨execAll_deposit_examine (X := .da) hs.1 hu nofun rfl fun _ => rfl,
    execAll_deposit_examine (X := .sa) hs.1 hu nofun rfl fun _ => rfl,
    execAll_deposit_examine (X := .ca) hs.1 hu nofun rfl fun _ => rfl,
    execAll_deposit_examine (X := .ds) hs.1 hu nofun rfl fun _ => rfl⟩

/-- Settles O6, by the two cases of a step that runs no operation. -/
theorem stepRefusesAnIllFormedConfigurationAndIdles : Obligations.StepRefusesAnIllFormedConfigurationAndIdles :=
  fun _ => ⟨step_of_not_wf, step_of_nothing_issued⟩

/-- Settles O24, by the line the pair names; CP reads the view, as VR.CP does. -/
theorem rfReadReturnsTheLine : Obligations.RfReadReturnsTheLine := by
  intro s u rf b l hs hrf hu
  have hu' : u.toNat < s.cfg.nDrums := hu ▸ hrf
  rw [hs.1.exec_vrCp_named hu', ← hs.1.cpValue_cut hu', exec_rfRead hrf, State.vxRead_eq, hu]
  rcases s.cfg.lineAt ⟨b, l⟩ with _ | X
  · rfl
  · cases X <;> rfl

/-- Settles O26: a deposit is the raw store, whose cut to the width is the datum's low bits. -/
theorem depositStoresTheRawValue : Obligations.DepositStoresTheRawValue := by
  intro s u v _ hu
  rw [← BitVec.setWidth_eq_extractLsb' (by decide : 32 ≤ 64), ← BitVec.setWidth_eq_extractLsb' (by decide : 28 ≤ 64)]
  exact ⟨depositLine_eq (X := .da) hu, depositLine_eq (X := .sa) hu, depositLine_eq (X := .ca) hu,
    depositLine_eq (X := .ds) hu⟩

/-- Settles O27: an examine is the raw load, and CP's is the view VR.CP returns. -/
theorem examineReturnsTheRawValue : Obligations.ExamineReturnsTheRawValue := by
  intro s u hs hu
  exact ⟨examineLine_eq (X := .da) hu, examineLine_eq (X := .sa) hu, examineLine_eq (X := .ca) hu,
    examineLine_eq (X := .ds) hu, (examineLine_eq (X := .cp) hu).trans (hs.1.exec_vrCp_named hu).symm⟩

end Sys2Proof.Machine

namespace Sys2Proof

/-! ## The Exchange (41_exchange_bus.md): bus read and bus write, route by route

An access reads of its address only the unit field and the offset (R70), so two addresses that agree in bits 27:0 are served
alike unless a diagnostic records the address itself (`exec_br_congr`, `exec_bw_congr`). What the access does is then one
equation for each handler; at a drum unit, a resolved offset makes it RF.READ or RF.WRITE of the unit's RegisterFile, whose
number the unit field of the record can hold (`Config.toNat_fileOf_drum`). -/

section

variable {c : Config} {a a' : RealAddr} {id : BitVec 4} {v : Nat}

/-! ### The fields of a real address (R70, decision D2) -/

/-- Bits 31:28 take no part in the unit field. -/
theorem addrUnit_congr (h : a'.extractLsb' 0 28 = a.extractLsb' 0 28) : addrUnit a' = addrUnit a := by
  simpa [addrUnit, BitVec.extractLsb'_extractLsb'_of_le] using congrArg (BitVec.extractLsb' 24 4) h

/-- Bits 31:28 take no part in the offset. -/
theorem addrOffset_congr (h : a'.extractLsb' 0 28 = a.extractLsb' 0 28) : addrOffset a' = addrOffset a := by
  simpa [addrOffset, BitVec.extractLsb'_extractLsb'_of_le] using congrArg (BitVec.extractLsb' 0 24) h

/-- The number of a routed drum unit fits the operand `rf` (R67; log 11). -/
theorem Config.toNat_fileOf_drum (hwf : c.wf = true) (hr : c.routeOf id = .drum v) : (BitVec.ofNat 8 v).toNat = v := by
  have hv := Config.route_lt_of_wf hwf hr
  have hn := (Config.sizes_of_wf hwf).2.1
  rw [BitVec.toNat_ofNat]
  omega

end

end Sys2Proof

namespace Sys2Proof.Machine

section

variable {s : State} {a a' : RealAddr} {d : Data} {v e : Nat} {p : VxAddr}

/-! ### Bus read (R72) -/

/-- A routed read does not see bits 31:28 of its address. -/
theorem exec_br_congr (hr : s.cfg.routeOf (addrUnit a) ≠ .unrouted) (h : a'.extractLsb' 0 28 = a.extractLsb' 0 28) :
    exec (.br a') s = exec (.br a) s := by
  simp only [exec, execBr, State.busRead, addrUnit_congr h, addrOffset_congr h]
  cases hh : s.cfg.routeOf (addrUnit a) with
  | unrouted => exact absurd hh hr
  | drum v => rfl
  | external e => rfl

theorem exec_br_unrouted (hr : s.cfg.routeOf (addrUnit a) = .unrouted) :
    exec (.br a) s = .next ((s.diagnose .read a none).answer 0) := by
  simp [exec, execBr, State.busRead, hr]

theorem exec_br_external (hr : s.cfg.routeOf (addrUnit a) = .external e) :
    exec (.br a) s = .next (s.answerDraw e (addrOffset a)) := by
  simp [exec, execBr, State.busRead, hr]

/-- An offset of a drum unit that resolves to no line reads 0 (R74). -/
theorem exec_br_unresolved (hr : s.cfg.routeOf (addrUnit a) = .drum v) (hp : s.cfg.resolveOffset (addrOffset a) = none) :
    exec (.br a) s = .next (s.answer 0) := by
  rw [exec_br_drum hr, State.drumRead, hp]

/-- A resolved offset reads as RF.READ of the unit's RegisterFile does (R74; log 11). -/
theorem exec_br_eq_rfRead (hwf : s.cfg.wf = true) (hr : s.cfg.routeOf (addrUnit a) = .drum v)
    (hp : s.cfg.resolveOffset (addrOffset a) = some p) :
    exec (.br a) s = exec (.rfRead (BitVec.ofNat 8 v) p.block p.line) s := by
  have hfile := Config.toNat_fileOf_drum hwf hr
  rw [exec_br_drum hr, exec_rfRead (hfile.symm ▸ Config.route_lt_of_wf hwf hr), State.drumRead, hp, hfile]

/-! ### Bus write (R73) -/

/-- A routed write does not see bits 31:28 of its address. -/
theorem exec_bw_congr (hr : s.cfg.routeOf (addrUnit a) ≠ .unrouted) (h : a'.extractLsb' 0 28 = a.extractLsb' 0 28) :
    exec (.bw a' d) s = exec (.bw a d) s := by
  simp only [exec, execBw, State.busWrite, addrUnit_congr h, addrOffset_congr h]
  cases hh : s.cfg.routeOf (addrUnit a) with
  | unrouted => exact absurd hh hr
  | drum v => rfl
  | external e => rfl

theorem exec_bw_unrouted (hr : s.cfg.routeOf (addrUnit a) = .unrouted) :
    exec (.bw a d) s = .next (s.diagnose .write a (some d)).silent := by
  simp [exec, execBw, State.busWrite, hr]

theorem exec_bw_drum (hr : s.cfg.routeOf (addrUnit a) = .drum v) :
    exec (.bw a d) s = .next (s.drumWrite v (addrOffset a) d).silent := by
  simp [exec, execBw, State.busWrite, hr]

theorem exec_bw_external (hr : s.cfg.routeOf (addrUnit a) = .external e) :
    exec (.bw a d) s = .next (s.extWrite e (addrOffset a) d).silent := by
  simp [exec, execBw, State.busWrite, hr]

/-- A write at an offset of a drum unit that resolves to no line is discarded (R74). -/
theorem exec_bw_unresolved (hr : s.cfg.routeOf (addrUnit a) = .drum v) (hp : s.cfg.resolveOffset (addrOffset a) = none) :
    exec (.bw a d) s = .next s.silent := by
  rw [exec_bw_drum hr, State.drumWrite, hp]

/-- A write at a resolved offset is RF.WRITE of the unit's RegisterFile (R74; log 11). -/
theorem exec_bw_eq_rfWrite (hwf : s.cfg.wf = true) (hr : s.cfg.routeOf (addrUnit a) = .drum v)
    (hp : s.cfg.resolveOffset (addrOffset a) = some p) :
    exec (.bw a d) s = exec (.rfWrite (BitVec.ofNat 8 v) p.block p.line d) s := by
  have hfile := Config.toNat_fileOf_drum hwf hr
  rw [exec_bw_drum hr, exec_rfWrite (hfile.symm ▸ Config.route_lt_of_wf hwf hr), State.drumWrite, hp, hfile]

end

/-! ### The obligations of 41_exchange_bus.md -/

/-- Settles O29, by the handler of the address's unit field and, at a drum unit, by what its offset resolves to. -/
theorem busReadRoutes : Obligations.BusReadRoutes := by
  intro s a ⟨⟨hwf, _⟩, _⟩
  refine ⟨OpRecord.opsel_toWord _, ?_⟩
  split
  · next hr => exact exec_br_unrouted hr
  · next v hr =>
    refine ⟨fun a' => exec_br_congr (a := a) (hr.trans_ne nofun), ?_⟩
    split
    · next hp => exact exec_br_unresolved hr hp
    · next p hp => exact exec_br_eq_rfRead hwf hr hp
  · next e hr => exact ⟨fun a' => exec_br_congr (a := a) (hr.trans_ne nofun), exec_br_external hr⟩

/-- Settles O30, by the handler of the address's unit field and, at a drum unit, by what its offset resolves to. -/
theorem busWriteRoutes : Obligations.BusWriteRoutes := by
  intro s a d ⟨⟨hwf, _⟩, _⟩
  refine ⟨OpRecord.opsel_toWord _, ?_⟩
  split
  · next hr => exact exec_bw_unrouted hr
  · next v hr =>
    refine ⟨fun a' => exec_bw_congr (a := a) (hr.trans_ne nofun), ?_⟩
    split
    · next hp => exact exec_bw_unresolved hr hp
    · next p hp => exact exec_bw_eq_rfWrite hwf hr hp
  · next e hr => exact ⟨fun a' => exec_bw_congr (a := a) (hr.trans_ne nofun), exec_bw_external hr⟩

end Sys2Proof.Machine

namespace Sys2Proof

/-! ## The drum unit (42_drum_unit.md): its lines, its rotation and its medium

A read or write of a line is the same by the unit-level operation and by the bus, so each pair is stated for any line: both
forms of a read return `State.lineRead`, and both forms of a write make the unit what the line's write makes it
(`writeLine_and_bw_of_writeLine`). The statements on rotation follow from the two cases of an advance
(`State.advance_of_arrived`, `State.advance_of_not_arrived`) and from what a list of ADV does (`execAll_adv_cons`,
`execAll_map_adv_cons`); advances commute, so a list of them may be taken in any order (`foldl_advance_perm`). -/

section

variable {c : Config} {a : RealAddr} {v : Nat} {p : VxAddr}

/-- The low byte of a unit-level operation's word is its selector, in both operand forms (R52). -/
theorem OpRecord.opsel_toWord_vx (op : BitVec 8) (u : UnitNo) (r : LineOperand) (d : Data) :
    (OpRecord.vx op u r d).toWord.extractLsb' 0 8 = op := by
  rw [OpRecord.opsel_toWord]
  cases r <;> rfl

/-- An address routed to a unit, but of none of its lines, resolves to no mapped pair (R45). -/
theorem Config.lineAt_eq_none_of_not_addresses (hr : c.routeOf (addrUnit a) = .drum v)
    (hX : ∀ X, c.addresses a v X = false) (hp : c.resolveOffset (addrOffset a) = some p) : c.lineAt p = none := by
  cases hl : c.lineAt p with
  | none => rfl
  | some X => exact absurd (Config.addresses_iff.mpr ⟨hr, p, hp, hl⟩) (Bool.eq_false_iff.mp (hX X))

/-- The operand of VR.NONE or VW.NONE gives no pair or an unmapped one (log 4). -/
theorem LineOperand.unmapped_iff {r : LineOperand} :
    r.unmapped c = true ↔ r = .named ∨ ∃ b l, r = .pair b l ∧ c.lineAt ⟨b, l⟩ = none := by
  cases r <;> simp [LineOperand.unmapped]

/-- The conditions of an illegal request, one by one (R80). -/
theorem requestIllegal_iff {att : Bool} {bpb : Nat} {block : BitVec 6} {size : BitVec 8} :
    requestIllegal att bpb block size = true ↔ att = false ∨ bpb ≤ block.toNat ∨ size = 0 ∨ bpb < size.toNat := by
  simp [requestIllegal, or_assoc]

end

end Sys2Proof

namespace Sys2Proof.Machine

section

variable {s : State} {u : UnitNo} {r : LineOperand} {a : RealAddr} {d : Data} {v : Nat} {X : Line} {U : DrumUnit}

/-! ### A line read or written, by the unit and by the bus (R72, R73, R77) -/

/-- What a read of line X of unit `v` returns (the table of R77). -/
def State.lineRead (s : State) (v : Nat) (X : Line) : Data :=
  match X with
  | .da => ((s.unit v).da ||| daFixedBit).setWidth 64
  | .sa => (s.unit v).sa.setWidth 64
  | .ca => (s.unit v).ca.setWidth 64
  | .ds => ((s.unit v).ds &&& dsReadMask).setWidth 64
  | .cp => ((s.cpValue v).setWidth 24).setWidth 64

/-- A Vx-Store read depends on its pair through the line alone. -/
theorem State.vxRead_of_lineAt {p : VxAddr} (hp : s.cfg.lineAt p = some X) : s.vxRead v p = s.lineRead v X := by
  rw [State.vxRead_eq, hp]
  cases X <;> rfl

/-- VR.X returns what a read of the line returns. -/
theorem readLine_eq_lineRead (hu : u.toNat < s.cfg.nDrums) (hr : r.names s.cfg X = true) :
    readLine s X u r = .next (s.answer (s.lineRead u.toNat X)) := by
  obtain ⟨p, hp, he⟩ := readLine_eq hu hr
  rw [he, State.vxRead_of_lineAt hp]

/-- So does a bus read at an address of the line. -/
theorem exec_br_eq_lineRead (ha : s.cfg.addresses a v X = true) :
    exec (.br a) s = .next (s.answer (s.lineRead v X)) := by
  obtain ⟨p, hp, he⟩ := exec_br_of_addresses ha
  rw [he, State.vxRead_of_lineAt hp]

/-- If the write of line X makes the unit `U`, VW.X and a bus write of the line make it `U` and return nothing. -/
theorem writeLine_and_bw_of_writeLine (hu : u.toNat < s.cfg.nDrums)
    (hU : (s.unit u.toNat).writeLine s.cfg (s.cfg.bpbOf u.toNat) X d = U) :
    (r.names s.cfg X = true → writeLine s X u r d = .next (s.setUnit u.toNat U).silent)
      ∧ (s.cfg.addresses a u.toNat X = true → exec (.bw a d) s = .next (s.setUnit u.toNat U).silent) :=
  hU ▸ ⟨writeLine_eq hu, exec_bw_of_addresses⟩

/-! ### The bus at an offset of no line (R66, R74, R89) -/

/-- A bus read of a unit at an address of none of its lines returns 0. -/
theorem exec_br_of_not_addresses (hr : s.cfg.routeOf (addrUnit a) = .drum v) (hX : ∀ X, s.cfg.addresses a v X = false) :
    exec (.br a) s = .next (s.answer 0) := by
  cases hp : s.cfg.resolveOffset (addrOffset a) with
  | none => exact exec_br_unresolved hr hp
  | some p =>
    have hnone := Config.lineAt_eq_none_of_not_addresses hr hX hp
    simp only [exec_br_drum hr, State.drumRead, hp, State.vxRead_eq, hnone]

/-- A bus write to a unit at an address of none of its lines is discarded. -/
theorem exec_bw_of_not_addresses (hr : s.cfg.routeOf (addrUnit a) = .drum v) (hX : ∀ X, s.cfg.addresses a v X = false) :
    exec (.bw a d) s = .next s.silent := by
  cases hp : s.cfg.resolveOffset (addrOffset a) with
  | none => exact exec_bw_unresolved hr hp
  | some p =>
    have hnone := Config.lineAt_eq_none_of_not_addresses hr hX hp
    simp only [exec_bw_drum hr, State.drumWrite, hp, State.vxWrite_eq, hnone]

/-! ### Validation of a request (R80) -/

theorem DrumUnit.validate_of_illegal {c : Config} {bpb : Nat} {new : BitVec 32}
    (h : requestIllegal U.attached bpb (daBlock new) (daSize new) = true) :
    U.validate c bpb new = { U with ds := U.ds ||| c.flagPair, req := .noRequest } := by
  simp [DrumUnit.validate, Config.flagsAfter, h]

theorem DrumUnit.validate_of_legal {c : Config} {bpb : Nat} {new : BitVec 32}
    (h : ¬ requestIllegal U.attached bpb (daBlock new) (daSize new) = true) :
    U.validate c bpb new = { U with ds := U.ds &&& ~~~c.flagPair, req := .pending (requestOf new) } := by
  simp [DrumUnit.validate, Config.flagsAfter, h]

/-! ### The fields of the current-positions view (R24, R49) -/

/-- Bits 6n+5:6n of the packed view are the position of unit n. -/
theorem extractLsb'_packedPositions {l : List DrumUnit} {n : Nat} (hl : 6 * l.length ≤ 64) (hn : n < l.length) :
    (packedPositions 0 l).extractLsb' (6 * n) 6 = BitVec.ofNat 6 (l.getD n DrumUnit.created).pos := by
  refine BitVec.eq_of_getLsbD_eq fun k hk => ?_
  have hdiv : (6 * n + k) / 6 - 0 = n := by omega
  have hmod : (6 * n + k) % 6 = k := by omega
  have hlt : 6 * n + k < 6 * l.length := by omega
  rw [BitVec.getLsbD_extractLsb', getLsbD_packedPositions _ l 0 (by omega), hdiv, hmod, BitVec.getLsbD_ofNat]
  simp [hk, hlt]

/-- A position below 64 stands in its unit's field, with no bit lost at the top of the word. -/
theorem toNat_positionField {n pos : Nat} (hn : n ≤ 3) (hpos : pos < 64) :
    (positionField n pos).toNat = pos * 2 ^ (6 * n) := by
  have hpow : 2 ^ (6 * n) ≤ 2 ^ 18 := Nat.pow_le_pow_right (by decide) (by omega)
  have hprod : pos * 2 ^ (6 * n) < 2 ^ 64 := calc
    pos * 2 ^ (6 * n) ≤ 64 * 2 ^ 18 := Nat.mul_le_mul hpos.le hpow
    _ < 2 ^ 64 := by decide
  have h6 : pos % 2 ^ 6 = pos := Nat.mod_eq_of_lt hpos
  have h64 : pos % 2 ^ 64 = pos := Nat.mod_eq_of_lt (by omega)
  rw [positionField, BitVec.toNat_shiftLeft, BitVec.toNat_setWidth, BitVec.toNat_ofNat, h6, h64, Nat.shiftLeft_eq,
    Nat.mod_eq_of_lt hprod]

/-- Under `packed_all` the field of every unit holds its position. -/
theorem State.Inv.extractLsb'_cpValue (hs : s.Inv) (hview : s.cfg.curposView = .packedAll) {n : Nat}
    (hn : n < s.cfg.nDrums) : ((s.cpValue v).extractLsb' (6 * n) 6).toNat = (s.unit n).pos := by
  have ⟨hwf, hlen, _⟩ := hs
  obtain ⟨-, hfour, -⟩ := Config.sizes_of_wf hwf
  rw [State.cpValue, hview]
  dsimp only
  rw [extractLsb'_packedPositions (by omega) (by omega), BitVec.toNat_ofNat]
  exact Nat.mod_eq_of_lt (hs.pos_lt hn)

/-- Under `packed_all` no bit stands above the last unit's field. -/
theorem State.Inv.getLsbD_cpValue_of_le (hs : s.Inv) (hview : s.cfg.curposView = .packedAll) {k : Nat}
    (hk : 6 * s.cfg.nDrums ≤ k) : (s.cpValue v).getLsbD k = false := by
  have ⟨hwf, hlen, _⟩ := hs
  obtain ⟨-, hfour, -⟩ := Config.sizes_of_wf hwf
  have hnot : ¬ k < 6 * (0 + s.units.length) := by omega
  rw [State.cpValue, hview]
  dsimp only
  rw [getLsbD_packedPositions k s.units 0 (by omega), decide_eq_false hnot, Bool.and_false, Bool.false_and]

/-- Under `own_field` the view is the reading unit's field alone. -/
theorem State.Inv.toNat_cpValue (hs : s.Inv) (hview : s.cfg.curposView = .ownField) (hv : v < s.cfg.nDrums) :
    (s.cpValue v).toNat = (s.unit v).pos * 2 ^ (6 * v) := by
  obtain ⟨-, hfour, -⟩ := Config.sizes_of_wf hs.1
  rw [State.cpValue, hview]
  exact toNat_positionField (by omega) (hs.pos_lt hv)

/-! ### One advance (R90, R94) -/

/-- The baseline's mark on a state (R30, R94). -/
theorem State.mark_eq (s : State) (why : MarkReason) : s.mark why = { s with refused := some .unmodelledTransfer } := by
  rw [← State.mark_refused s why]
  rfl

/-- An advance that brings a Pending request to its block starts it. -/
theorem State.advance_of_arrived {p : Request} (hreq : (s.unit v).req = .pending p)
    (hblock : p.block.toNat = ((s.unit v).pos + 1) % s.cfg.bpbOf v) :
    s.advance v = { s with
      units := s.units.set v { s.unit v with pos := ((s.unit v).pos + 1) % s.cfg.bpbOf v, req := .inTransfer p },
      refused := some .unmodelledTransfer } := by
  have harrived := (DrumUnit.arrived_iff (s.cfg.bpbOf v) (s.unit v) p).mpr ⟨hreq, hblock.symm⟩
  simp only [State.advance, harrived, State.transferStart_eq, State.mark_eq]
  rfl

/-- Any other advance moves the position and does nothing else. -/
theorem State.advance_of_not_arrived
    (h : ∀ p, (s.unit v).req = .pending p → p.block.toNat ≠ ((s.unit v).pos + 1) % s.cfg.bpbOf v) :
    s.advance v = { s with
      units := s.units.set v { s.unit v with pos := ((s.unit v).pos + 1) % s.cfg.bpbOf v } } := by
  have hnone : ((s.unit v).rotate (s.cfg.bpbOf v)).arrived = none := by
    refine Option.eq_none_iff_forall_ne_some.mpr fun p harrived => ?_
    obtain ⟨hreq, hblock⟩ := (DrumUnit.arrived_iff _ _ p).mp harrived
    exact h p hreq hblock.symm
  simp only [State.advance, hnone]
  rfl

/-- An advanced unit differs in its position and its request alone (R92). -/
theorem DrumUnit.advanced_eq (bpb : Nat) (d : DrumUnit) :
    d.advanced bpb = { d with pos := (d.advanced bpb).pos, req := (d.advanced bpb).req } := by
  unfold DrumUnit.advanced
  split <;> rfl

/-- An advance changes one unit and the mark alone (R92). -/
theorem State.advance_eq_set (s : State) (v : Nat) :
    s.advance v = { s with
      units := s.units.set v ((s.unit v).advanced (s.cfg.bpbOf v)), refused := (s.advance v).refused } := by
  rw [State.advance_eq]
  dsimp only
  split <;> rfl

/-- An advance does not see the returned datum. -/
@[simp] theorem State.advance_silent (s : State) (v : Nat) : s.silent.advance v = (s.advance v).silent := by
  rw [State.advance_eq, State.advance_eq, apply_ite State.silent]
  rfl

/-! ### Several advances (R91 to R93, R100) -/

/-- A sequence that begins with ADV goes on from the advanced unit. -/
theorem execAll_adv_cons (hu : u.toNat < s.cfg.nDrums) (ops : List Instr) :
    execAll (.adv u :: ops) s = execAll ops (s.advance u.toNat).silent := by
  rw [execAll, exec_adv hu]

/-- From a state with no returned datum, ADV of each unit of a list is the fold of their advances. -/
theorem execAll_map_adv_silent (us : List UnitNo) (s : State) (hus : ∀ u ∈ us, u.toNat < s.cfg.nDrums) :
    execAll (us.map .adv) s.silent = .next ((us.map (·.toNat)).foldl State.advance s).silent := by
  induction us generalizing s with
  | nil => rfl
  | cons u us ih =>
    obtain ⟨hu, hrest⟩ := List.forall_mem_cons.mp hus
    rw [List.map_cons, execAll_adv_cons (s := s.silent) hu, State.advance_silent]
    exact ih (s.advance u.toNat) (by simpa using hrest)

/-- ADV of each unit of a nonempty list is the fold of their advances; the last of them returns nothing. -/
theorem execAll_map_adv_cons {us : List UnitNo} (hus : ∀ w ∈ u :: us, w.toNat < s.cfg.nDrums) :
    execAll ((u :: us).map .adv) s = .next (((u :: us).map (·.toNat)).foldl State.advance s).silent := by
  obtain ⟨hu, hrest⟩ := List.forall_mem_cons.mp hus
  rw [List.map_cons, execAll_adv_cons hu]
  exact execAll_map_adv_silent us (s.advance u.toNat) (by simpa using hrest)

/-- Advances may be taken in any order: those of distinct units commute (R92). -/
theorem foldl_advance_perm {l l' : List Nat} (h : l.Perm l') (s : State) :
    l.foldl State.advance s = l'.foldl State.advance s := by
  refine h.foldl_eq' (fun v _ w _ t => ?_) s
  rcases eq_or_ne v w with rfl | hne
  · rfl
  · exact t.advance_comm v w hne

/-- A position is below its unit's BPB (R25). -/
theorem State.Inv.pos_lt_bpb (hs : s.Inv) (hv : v < s.cfg.nDrums) : (s.unit v).pos < s.cfg.bpbOf v := by
  obtain ⟨-, -, hpos, -⟩ := hs
  exact hpos v hv

/-- `k` advances move a unit's position by `k`, modulo BPB (R93). -/
theorem execAll_replicate_adv (k : Nat) (hs : s.Inv) (hu : u.toNat < s.cfg.nDrums) :
    ∃ t, execAll (List.replicate k (.adv u)) s = .next t
      ∧ (t.unit u.toNat).pos = ((s.unit u.toNat).pos + k) % s.cfg.bpbOf u.toNat := by
  induction k generalizing s with
  | zero => exact ⟨s, rfl, (Nat.mod_eq_of_lt (hs.pos_lt_bpb hu)).symm⟩
  | succ k ih =>
    obtain ⟨t, ht, hpos⟩ := ih (exec_keeps_inv hs (exec_adv hu)) (by simpa using hu)
    refine ⟨t, by rw [List.replicate_succ, execAll_adv_cons hu, ht], ?_⟩
    rw [hpos, State.silent_unit, State.silent_cfg, State.advance_cfg, State.unit_advance_same s _ (hs.lt_length hu),
      DrumUnit.advanced_pos, Nat.mod_add_mod, Nat.add_assoc, Nat.add_comm 1 k]

end

/-! ### The obligations of 42_drum_unit.md -/

/-- Settles O18: the three reads return the view, whose fields are the positions. -/
theorem currentPositionsReadThePositions : Obligations.CurrentPositionsReadThePositions := by
  intro s u r a ⟨hs, _⟩ hu
  have hcp : s.lineRead u.toNat .cp = s.cpValue u.toNat := hs.cpValue_cut hu
  exact ⟨s.cpValue u.toNat, hcp ▸ readLine_eq_lineRead hu, hcp ▸ exec_br_eq_lineRead, examineLine_eq (X := .cp) hu,
    fun hview => ⟨fun _ => hs.extractLsb'_cpValue hview, fun _ => hs.getLsbD_cpValue_of_le hview⟩,
    fun hview => hs.toNat_cpValue hview hu⟩

/-- Settles O20: either form is the write of DA, which validates the word it stores, by the two cases of validation. -/
theorem vwDaStoresAndValidates : Obligations.VwDaStoresAndValidates := by
  intro s u r a d _ hu U new block size F illegal p i hi
  have hillegal := requestIllegal_iff (att := U.attached) (bpb := s.cfg.bpbOf u.toNat) (block := block) (size := size)
  have hexec : exec i s
      = .next (s.setUnit u.toNat { U.validate s.cfg (s.cfg.bpbOf u.toNat) new with da := new }).silent := by
    obtain ⟨hunit, hbus⟩ := writeLine_and_bw_of_writeLine (r := r) (a := a) hu (DrumUnit.writeLine_da _ _ U d)
    rcases hi with ⟨rfl, hr⟩ | ⟨rfl, ha⟩
    · exact hunit hr
    · exact hbus ha
  refine ⟨fun h => ?_, fun h => ?_⟩
  · rw [hexec, DrumUnit.validate_of_illegal (hillegal.mpr h)]
    rfl
  · rw [hexec, DrumUnit.validate_of_legal (mt hillegal.mp h)]
    rfl

/-- Settles O33: TICK folds the advances over the units in their order, and they may be taken in any. -/
theorem tickIsAdvOfEveryUnitInAnyOrder : Obligations.TickIsAdvOfEveryUnitInAnyOrder := by
  intro s order ⟨hs, _⟩ hperm
  have hall : ∀ u ∈ order, u.toNat < s.cfg.nDrums := fun u hu =>
    List.mem_range.mp (hperm.subset (List.mem_map_of_mem hu))
  refine ⟨s.tick.silent, rfl, ?_⟩
  cases order with
  | nil =>
    have hlen : 0 = s.cfg.nDrums := by simpa using hperm.length_eq
    obtain ⟨hone, -⟩ := Config.sizes_of_wf hs.1
    omega
  | cons u us => rw [execAll_map_adv_cons hall, foldl_advance_perm hperm, State.tick]

/-- Settles O34, by the frame of one advance and the commutation of two. -/
theorem advancesOfDistinctUnitsAreIndependent : Obligations.AdvancesOfDistinctUnitsAreIndependent := by
  intro s s' u v ⟨hs, _⟩ ⟨hs', _⟩ hu hv hne hcfg hunit
  have hu' : u.toNat < s'.cfg.nDrums := hcfg ▸ hu
  have hnat : u.toNat ≠ v.toNat := fun h => hne (BitVec.eq_of_toNat_eq h)
  have hsame := State.unit_advance_same s u.toNat (hs.lt_length hu)
  have hsame' := State.unit_advance_same s' u.toNat (hs'.lt_length hu')
  refine ⟨_, _, exec_adv hu, exec_adv hu', ?_, ?_, ?_, _, execAll_map_adv_cons (us := [v]) ?_, ?_⟩
  · rw [State.silent_unit, hsame, ← DrumUnit.advanced_eq]
    exact congrArg State.silent (s.advance_eq_set u.toNat)
  · exact s.unit_advance_of_ne _ _ hnat.symm
  · rw [State.silent_unit, State.silent_unit, hsame, hsame', hcfg, hunit]
  · simp [hu, hv]
  · rw [foldl_advance_perm ((List.Perm.swap v u []).map _)]
    exact execAll_map_adv_cons (us := [u]) (by simp [hu, hv])

/-- Settles O35: the position after `k` advances, and `k` = BPB drops out modulo BPB. -/
theorem advancesWrapAround : Obligations.AdvancesWrapAround := by
  intro s u k ⟨hs, _⟩ hu
  refine ⟨execAll_replicate_adv k hs hu, ?_⟩
  obtain ⟨t, ht, hpos⟩ := execAll_replicate_adv (s.cfg.bpbOf u.toNat) hs hu
  exact ⟨t, ht, by rw [hpos, Nat.add_mod_right, Nat.mod_eq_of_lt (hs.pos_lt_bpb hu)]⟩

/-- Settles O14: the read of DA forces the fixed bit. -/
theorem vrDaReadsWithTheFixedBit : Obligations.VrDaReadsWithTheFixedBit :=
  fun _ _ _ _ _ hu =>
    ⟨readLine_eq_lineRead (X := .da) hu, exec_br_eq_lineRead (X := .da), OpRecord.opsel_toWord_vx _ _ _ _⟩

/-- Settles O15: the read of SA has no transform. -/
theorem vrSaReadsTheStoreAddress : Obligations.VrSaReadsTheStoreAddress :=
  fun _ _ _ _ _ hu =>
    ⟨readLine_eq_lineRead (X := .sa) hu, exec_br_eq_lineRead (X := .sa), OpRecord.opsel_toWord_vx _ _ _ _⟩

/-- Settles O16: the read of CA has no transform. -/
theorem vrCaReadsTheCompleteAddress : Obligations.VrCaReadsTheCompleteAddress :=
  fun _ _ _ _ _ hu =>
    ⟨readLine_eq_lineRead (X := .ca) hu, exec_br_eq_lineRead (X := .ca), OpRecord.opsel_toWord_vx _ _ _ _⟩

/-- Settles O17: the read of DS drops the unit field. -/
theorem vrDsReadsWithoutTheUnitField : Obligations.VrDsReadsWithoutTheUnitField :=
  fun _ _ _ _ _ hu =>
    ⟨readLine_eq_lineRead (X := .ds) hu, exec_br_eq_lineRead (X := .ds), OpRecord.opsel_toWord_vx _ _ _ _⟩

/-- Settles O19: the guard of the pairless and the unmapped operand, and the bus at an address of no line. -/
theorem unmappedLinesAreInert : Obligations.UnmappedLinesAreInert := by
  intro s u r a d _ hu
  refine ⟨fun hr => ?_, fun hroute hX => ⟨exec_br_of_not_addresses hroute hX, exec_bw_of_not_addresses hroute hX⟩⟩
  have hunmapped := LineOperand.unmapped_iff.mpr hr
  exact ⟨exec_vrNone hu hunmapped, exec_vwNone hu hunmapped⟩

/-- Settles O21: under SA's and CA's full masks the MERGE is a store of bits 27:0. -/
theorem vwSaAndVwCaStoreTwentyEightBits : Obligations.VwSaAndVwCaStoreTwentyEightBits := by
  intro s u r a d _ hu
  obtain ⟨hunitSa, hbusSa⟩ := writeLine_and_bw_of_writeLine (r := r) (a := a) hu (DrumUnit.writeLine_sa _ _ _ d)
  obtain ⟨hunitCa, hbusCa⟩ := writeLine_and_bw_of_writeLine (r := r) (a := a) hu (DrumUnit.writeLine_ca _ _ _ d)
  exact ⟨hunitSa, hbusSa, hunitCa, hbusCa⟩

/-- Settles O22: DS takes the W1C write under its mask. -/
theorem vwDsClearsTheWrittenOnes : Obligations.VwDsClearsTheWrittenOnes := by
  intro s u r a d _ hu
  obtain ⟨hunit, hbus⟩ := writeLine_and_bw_of_writeLine (r := r) (a := a) hu (DrumUnit.writeLine_ds _ _ _ d)
  exact ⟨hunit, hbus, OpRecord.opsel_toWord_vx _ _ _ _⟩

/-- Settles O23: CP absorbs its write, so the unit is written back as it was. -/
theorem vwCpChangesNothing : Obligations.VwCpChangesNothing := by
  intro s u r a d _ hu
  obtain ⟨hunit, hbus⟩ := writeLine_and_bw_of_writeLine (r := r) (a := a) hu (DrumUnit.writeLine_cp _ _ _ d)
  rw [State.setUnit_unit_self] at hunit hbus
  exact ⟨hunit, hbus, OpRecord.opsel_toWord_vx _ _ _ _⟩

/-- Settles O32, by the two cases of an advance. -/
theorem advMovesOneBlockAndStartsOnArrival : Obligations.AdvMovesOneBlockAndStartsOnArrival := by
  intro s u _ hu
  refine ⟨fun p hreq hblock => ?_, fun h => ?_⟩
  · rw [exec_adv hu, State.advance_of_arrived hreq hblock]
    rfl
  · rw [exec_adv hu, State.advance_of_not_arrived h]
    rfl

/-- Settles O39: both write the unit with the flag set anew. -/
theorem attachAndDetachSetOnlyTheFlag : Obligations.AttachAndDetachSetOnlyTheFlag :=
  fun _ _ _ hu => ⟨exec_attach hu, exec_detach hu⟩

end Sys2Proof.Machine

namespace Sys2Proof.Machine

/-! ## Exceptions (60_exceptions.md): every operation of the closed set completes

There is no fault, and an operation is refused only outside the closed set (`Guarded.answers`), so one of the closed set
answers a next state; what that state keeps is read off `Effect`. -/

/-- No operation changes the records still to be taken (log 2). -/
theorem Effect.issued_eq {i : Instr} {s t : State} (h : Effect i s t) : t.issued = s.issued := by
  cases h with
  | advanced v => exact State.advance_issued s v.toNat
  | ticked =>
    obtain ⟨-, -, -, hissued, -⟩ := foldl_advance_frame (List.range s.cfg.nDrums) s
    exact hissued
  | _ => rfl

/-- An operation of the closed set answers a next state (R97). -/
theorem exec_completes {i : Instr} {s : State} (hwf : i.wf s.cfg = true) : ∃ t, exec i s = .next t := by
  have hans : Answers true (exec i s) := hwf ▸ (exec_guarded i s).answers
  cases hexec : exec i s with
  | next t => exact ⟨t, rfl⟩
  | fault why => exact nomatch why
  | refused why => exact absurd (hans.refused_iff.mpr ⟨why, hexec⟩) nofun

/-! ### The obligation of 60_exceptions.md -/

/-- Settles O7: the operation completes, and none of the twelve things it can have done touches the three fields. -/
theorem everyOperationCompletes : Obligations.EveryOperationCompletes := by
  intro i s hwf
  obtain ⟨t, ht⟩ := exec_completes hwf
  have heffect := exec_effect ht
  exact ⟨t, ht, heffect.cfg_eq, heffect.issued_eq, heffect.units_length⟩

end Sys2Proof.Machine

namespace Sys2Proof

/-! ## Reset and hazards (70_reset_and_hazards.md): creation, RESET, a read after a write, the rotational wait

A read after a write of the same unit answers from the unit the write left (`execAll_write_read`). The rotational wait is
one predicate, `State.Waits s u p k`: `k` advances of unit `u` are left until its request `p` starts. An advance takes one
off (`State.Waits.step_advance`), the last one starts the transfer (`State.Waits.start`), and every other operation of the
interleaving keeps it (`State.Waits.step_other`); `State.Waits.run` is the induction over the operations. -/

section

variable {c : Config} {ds : BitVec 32} {k : Nat}

/-! ### The two flags of disc status (R19, R80) -/

/-- Check 3: both flag bits stand in the bits of disc status a read returns. -/
theorem Config.flagBits_of_wf (h : c.wf = true) :
    (4 ≤ c.decodeBit ∧ c.decodeBit < 32) ∧ 4 ≤ c.illegalRequestBit ∧ c.illegalRequestBit < 32 := by
  have hflags : c.flagBitsOk = true := by
    simp only [Config.wf, Bool.and_eq_true] at h
    obtain ⟨⟨⟨⟨⟨-, hflags⟩, -⟩, -⟩, -⟩, -⟩ := h
    exact hflags
  simp only [Config.flagBitsOk, Bool.and_eq_true, decide_eq_true_eq] at hflags
  obtain ⟨⟨⟨⟨-, hdecode⟩, hillegal⟩, hdecode4⟩, hillegal4⟩ := hflags
  exact ⟨⟨hdecode4, BitVec.lt_of_getLsbD hdecode⟩, hillegal4, BitVec.lt_of_getLsbD hillegal⟩

/-- The pair has exactly the two flag bits. -/
theorem Config.getLsbD_flagPair (hk : k < 32) :
    c.flagPair.getLsbD k = (decide (k = c.decodeBit) || decide (k = c.illegalRequestBit)) := by
  have hone : ∀ b, (1#32 <<< b).getLsbD k = decide (k = b) := fun b => by
    rw [← BitVec.twoPow_eq, BitVec.getLsbD_twoPow]
    by_cases hb : b = k
    · simp [hb, hk]
    · simp [hb, Ne.symm hb]
  rw [Config.flagPair, BitVec.getLsbD_or, hone, hone]

/-- A read of disc status returns every bit from 4 on. -/
theorem getLsbD_dsReadMask (hk4 : 4 ≤ k) (hk : k < 32) : dsReadMask.getLsbD k = true := by
  have hmask : dsReadMask = BitVec.allOnes 32 <<< 4 := by decide
  have hsub : k - 4 < 32 := by omega
  rw [hmask, BitVec.getLsbD_shiftLeft, BitVec.getLsbD_allOnes]
  simp [hk, hk4, hsub]

/-- A flag of the disc status a read returns after validation says whether the request was illegal. -/
theorem Config.getLsbD_flagsAfter (illegal : Bool) (hflag : c.flagPair.getLsbD k = true) (hk4 : 4 ≤ k) (hk : k < 32) :
    ((c.flagsAfter ds illegal &&& dsReadMask).setWidth 64).getLsbD k = illegal := by
  have hk64 : k < 64 := by omega
  rw [BitVec.getLsbD_setWidth, BitVec.getLsbD_and, getLsbD_dsReadMask hk4 hk, Config.flagsAfter]
  cases illegal <;> simp [hflag, hk, hk64]

end

end Sys2Proof

namespace Sys2Proof.Machine

section

variable {s t : State} {i w j : Instr} {u : Nat} {X Y : Line} {d : Data}

/-! ### A read right after a write (R36, R112) -/

/-- A write of line X and then a read of line Y of one unit: the read returns `v`, if line Y of the unit the write left
reads as `v`. -/
theorem execAll_write_read {v : Data} (hs : s.Inv) (hu : u < s.cfg.nDrums) (hwwf : w.wf s.cfg = true)
    (hjwf : j.wf s.cfg = true) (hd : w.datum = some d) (hw : w.writes s.cfg u X = true)
    (hj : j.readsLine s.cfg u Y = true)
    (hv : ∀ t : State, t.unit u = (s.unit u).writeLine s.cfg (s.cfg.bpbOf u) X d → t.lineRead u Y = v) :
    ∃ t, execAll [w, j] s = .next t ∧ t.result = some v := by
  obtain ⟨t, hwrite, hunit, hcfg⟩ : ∃ t, exec w s = .next t
      ∧ t.unit u = (s.unit u).writeLine s.cfg (s.cfg.bpbOf u) X d ∧ t.cfg = s.cfg :=
    ⟨_, exec_of_writes hwwf hw hd, State.unit_setUnit_same s u _ (hs.lt_length hu), rfl⟩
  obtain ⟨p, hp, hread⟩ := exec_of_readsLine (s := t) (hcfg ▸ hjwf) (hcfg ▸ hj)
  rw [State.vxRead_of_lineAt hp, hv t hunit] at hread
  exact ⟨t.answer v, by simp only [execAll, hwrite, hread], rfl⟩

/-- Bits 27:0 of a datum, read back as a 64-bit line (R82, R84). -/
theorem setWidth_extractLsb'_28 (d : Data) : (d.extractLsb' 0 28).setWidth 64 = d &&& 0x0FFFFFFF#64 := by
  have hmask : (BitVec.allOnes 28).setWidth 64 = 0x0FFFFFFF#64 := by decide
  rw [← BitVec.setWidth_eq_extractLsb' (by decide), setWidth_setWidth_eq_and, hmask]

/-! ### Sequences of operations (R40) -/

/-- A sequence completes exactly if its first operation does and the rest does after it. -/
theorem execAll_cons_next {ops : List Instr} :
    execAll (i :: ops) s = .next t ↔ ∃ w, exec i s = .next w ∧ execAll ops w = .next t := by
  rw [execAll]
  cases exec i s <;> simp

/-- No sequence of operations takes the mark away (R30). -/
theorem execAll_keeps_mark {ops : List Instr} (h : execAll ops s = .next t) (hs : s.refused = some .unmodelledTransfer) :
    t.refused = some .unmodelledTransfer := by
  induction ops generalizing s with
  | nil => exact Host.Outcome.next.inj h ▸ hs
  | cons i ops ih =>
    obtain ⟨w, hw, hrest⟩ := execAll_cons_next.mp h
    exact ih hrest (exec_keeps_mark hw hs)

/-! ### The rotational wait (R113) -/

variable {p : Request} {k : Nat}

/-- Unit `u` holds the Pending request `p`, and the `k`-th advance from here, and none before it, brings it to the
request's block. -/
structure State.Waits (s : State) (u : Nat) (p : Request) (k : Nat) : Prop where
  inv : s.Inv
  unit_lt : u < s.cfg.nDrums
  pending : (s.unit u).req = .pending p
  one_le : 1 ≤ k
  le_bpb : k ≤ s.cfg.bpbOf u
  block : ((s.unit u).pos + k) % s.cfg.bpbOf u = p.block.toNat

/-- The wait of R113 from position `q` to block `b`, both below `B`: it is from 1 to `B` advances, and leads to `b`. -/
theorem rotationalWait_spec {b q B : Nat} (hb : b < B) (hq : q < B) (hk : (k : Int) = ((b : Int) - q - 1) % B + 1) :
    1 ≤ k ∧ k ≤ B ∧ (q + k) % B = b := by
  have hB : (0 : Int) < B := by omega
  have hnonneg := Int.emod_nonneg ((b : Int) - q - 1) hB.ne'
  have hlt := Int.emod_lt_of_pos ((b : Int) - q - 1) hB
  refine ⟨by omega, by omega, ?_⟩
  have hmod : ((q : Int) + k) % B = b := calc
    ((q : Int) + k) % B = (((b : Int) - q - 1) % B + (q + 1)) % B := by rw [hk]; ring_nf
    _ = (b : Int) % B := by rw [Int.emod_add_emod]; ring_nf
    _ = b := Int.emod_eq_of_lt (by omega) (by omega)
  exact_mod_cast hmod

/-- An advance reaches the unit: it becomes the advanced unit (R90, R91). -/
theorem unit_of_advances (hs : s.Inv) (hu : u < s.cfg.nDrums) (ha : i.advances u = true) (h : exec i s = .next t) :
    t.unit u = (s.unit u).advanced (s.cfg.bpbOf u) := by
  cases i with
  | adv v =>
    obtain rfl : v.toNat = u := beq_iff_eq.mp ha
    obtain rfl := Host.Outcome.next.inj ((exec_adv hu).symm.trans h)
    exact State.unit_advance_same s v.toNat (hs.lt_length hu)
  | tick =>
    obtain rfl : s.tick.silent = t := Host.Outcome.next.inj h
    exact State.unit_tick s u hu (hs.lt_length hu)
  | _ => exact absurd ha Bool.false_ne_true

/-- A request whose wait is more than one advance does not arrive at the next. -/
theorem State.Waits.not_arrived (h : s.Waits u p (k + 1)) (hk : 1 ≤ k) :
    ((s.unit u).rotate (s.cfg.bpbOf u)).arrived = none := by
  refine Option.eq_none_iff_forall_ne_some.mpr fun q harrived => ?_
  obtain ⟨hreq, hblock⟩ := (DrumUnit.arrived_iff _ _ q).mp harrived
  obtain rfl : p = q := ReqState.pending.inj (h.pending.symm.trans hreq)
  have hmod : (s.unit u).pos + 1 ≡ (s.unit u).pos + (k + 1) [MOD s.cfg.bpbOf u] := hblock.trans h.block.symm
  have hdvd : s.cfg.bpbOf u ∣ k := (Nat.modEq_iff_dvd' (by omega)).mp hmod.add_left_cancel'
  have hle := Nat.le_of_dvd hk hdvd
  have hbpb := h.le_bpb
  omega

/-- An advance short of the last takes one off the wait. -/
theorem State.Waits.step_advance (h : s.Waits u p (k + 1)) (hk : 1 ≤ k) (ha : i.advances u = true)
    (hi : exec i s = .next t) : t.Waits u p k := by
  have hcfg := (exec_effect hi).cfg_eq
  have hunit := unit_of_advances h.inv h.unit_lt ha hi
  have hbpb := h.le_bpb
  refine ⟨exec_keeps_inv h.inv hi, hcfg ▸ h.unit_lt, ?_, hk, hcfg ▸ by omega, ?_⟩
  · rcases (s.unit u).advanced_req (s.cfg.bpbOf u) with ⟨q, hq, -⟩ | ⟨-, hsame⟩
    · exact absurd (h.not_arrived hk) (by simp [hq])
    · rw [hunit, hsame, h.pending]
  · rw [hunit, hcfg, DrumUnit.advanced_pos, Nat.mod_add_mod, ← h.block, Nat.add_assoc, Nat.add_comm 1 k]

/-- The last advance of the wait starts the transfer and sets the mark (R90, R94). -/
theorem State.Waits.start (h : s.Waits u p 1) (ha : i.advances u = true) (hi : exec i s = .next t) :
    (t.unit u).req = .inTransfer p ∧ t.refused = some .unmodelledTransfer := by
  have harrived := (DrumUnit.arrived_iff _ _ p).mpr ⟨h.pending, h.block⟩
  refine ⟨?_, exec_marks_arrival hi h.unit_lt ha (by rw [harrived]; rfl)⟩
  rw [unit_of_advances h.inv h.unit_lt ha hi, DrumUnit.advanced, harrived]

/-- Every other operation, but RESET and a write of DA of the unit, keeps the wait (R25, R27). -/
theorem State.Waits.step_other (h : s.Waits u p k) (ha : i.advances u = false) (hreset : i ≠ .reset)
    (hda : i.writes s.cfg u .da = false) (hi : exec i s = .next t) : t.Waits u p k := by
  have hcfg := (exec_effect hi).cfg_eq
  have hpos : (t.unit u).pos = (s.unit u).pos := by
    by_contra hne
    rcases (unitChange_of_field_ne DrumUnit.pos hi hne).pos_writer hne with hadv | hres
    · simp [ha] at hadv
    · exact hreset hres
  have hreq : (t.unit u).req = (s.unit u).req := by
    by_contra hne
    rcases (unitChange_of_field_ne DrumUnit.req hi hne).req_writer hne with hwrite | hadv | hres
    · simp [hda] at hwrite
    · simp [ha] at hadv
    · exact hreset hres
  exact ⟨exec_keeps_inv h.inv hi, hcfg ▸ h.unit_lt, hreq.trans h.pending, h.one_le, hcfg ▸ h.le_bpb,
    by rw [hpos, hcfg, h.block]⟩

/-- A run with `n` advances of the unit: short of the wait `n` are taken off it, and from it on the mark is set. -/
theorem State.Waits.run {ops : List Instr} (h : s.Waits u p k)
    (hops : ∀ i ∈ ops, i ≠ .reset ∧ i.writes s.cfg u .da = false) (hrun : execAll ops s = .next t) :
    (ops.countP (fun i => i.advances u) < k → t.Waits u p (k - ops.countP (fun i => i.advances u)))
      ∧ (k ≤ ops.countP (fun i => i.advances u) → t.refused = some .unmodelledTransfer) := by
  induction ops generalizing s k with
  | nil =>
    obtain rfl := Host.Outcome.next.inj hrun
    have hk := h.one_le
    exact ⟨fun _ => h, fun hle => absurd hle (by simp; omega)⟩
  | cons i ops ih =>
    obtain ⟨w, hw, hrest⟩ := execAll_cons_next.mp hrun
    obtain ⟨⟨hreset, hda⟩, hops'⟩ := List.forall_mem_cons.mp hops
    rw [← (exec_effect hw).cfg_eq] at hops'
    cases ha : i.advances u with
    | false =>
      rw [List.countP_cons_of_neg (by simp [ha])]
      exact ih (h.step_other ha hreset hda hw) hops' hrest
    | true =>
      rw [List.countP_cons_of_pos ha]
      obtain rfl | ⟨m, hm, rfl⟩ : k = 1 ∨ ∃ m, 1 ≤ m ∧ k = m + 1 :=
        h.one_le.eq_or_lt.imp Eq.symm fun hlt => ⟨k - 1, by omega, by omega⟩
      · exact ⟨fun hlt => absurd hlt (by omega), fun _ => execAll_keeps_mark hrest (h.start ha hw).2⟩
      · rw [Nat.add_lt_add_iff_right, Nat.add_le_add_iff_right, Nat.add_sub_add_right]
        exact ih (h.step_advance hm ha hw) hops' hrest

end

/-! ### The obligations of 70_reset_and_hazards.md -/

/-- Settles O36, by the wait left after each operation of the run. -/
theorem pendingRequestStartsAfterTheRotationalWait : Obligations.PendingRequestStartsAfterTheRotationalWait := by
  intro ops s t u p k ⟨hs, _⟩ hu hreq hops hrun hk n
  have hblock : p.block.toNat < s.cfg.bpbOf u.toNat := by
    obtain ⟨-, -, -, hlegal, -⟩ := hs
    exact (ReqState.legalFor_pending.mp (hreq ▸ hlegal u.toNat hu)).1
  obtain ⟨hone, hle, harrives⟩ := rotationalWait_spec hblock (hs.pos_lt_bpb hu) hk
  obtain ⟨hshort, hmark⟩ := State.Waits.run ⟨hs, hu, hreq, hone, hle, harrives⟩ hops hrun
  refine ⟨hone, hle, fun hn _ => (hshort hn).pending, hmark, fun i w _ hn ha hi => ?_⟩
  have hlast : k - n = 1 := by omega
  exact (hlast ▸ hshort (by omega) : t.Waits u.toNat p 1).start ha hi

/-- Settles O47: the read answers from the unit the write left, line by line. -/
theorem readAfterWriteSeesTheWrite : Obligations.ReadAfterWriteSeesTheWrite := by
  intro s u w j d ⟨hs, _⟩ hu hwwf hjwf hd U new illegal
  refine ⟨fun hw hj => ?_, fun hw hj => ?_, fun hw hj => ?_, fun hw hj => ?_, fun hw hj => ?_⟩
  · exact execAll_write_read hs hu hwwf hjwf hd hw hj fun t ht => by
      rw [State.lineRead, ht, DrumUnit.writeLine_sa, setWidth_extractLsb'_28]
  · exact execAll_write_read hs hu hwwf hjwf hd hw hj fun t ht => by
      rw [State.lineRead, ht, DrumUnit.writeLine_ca, setWidth_extractLsb'_28]
  · exact execAll_write_read hs hu hwwf hjwf hd hw hj fun t ht => by
      rw [State.lineRead, ht, DrumUnit.writeLine_da, BitVec.or_assoc, BitVec.or_self]
      rfl
  · exact execAll_write_read hs hu hwwf hjwf hd hw hj fun t ht => by
      rw [State.lineRead, ht, DrumUnit.writeLine_ds]
      rfl
  · obtain ⟨t, ht, hresult⟩ := execAll_write_read hs hu hwwf hjwf hd hw hj
      (v := (s.cfg.flagsAfter U.ds illegal &&& dsReadMask).setWidth 64) fun t ht => by
        rw [State.lineRead, ht, DrumUnit.writeLine_da]
        rfl
    obtain ⟨⟨hdecode4, hdecode⟩, hillegal4, hillegal⟩ := Config.flagBits_of_wf hs.1
    exact ⟨t, _, ht, hresult, rfl,
      Config.getLsbD_flagsAfter _ (by simp [Config.getLsbD_flagPair hdecode]) hdecode4 hdecode,
      Config.getLsbD_flagsAfter _ (by simp [Config.getLsbD_flagPair hillegal]) hillegal4 hillegal⟩

/-- Settles O38: RESET resets each unit, and `DrumUnit.reset` keeps `attached` alone. -/
theorem resetZeroesEveryUnit : Obligations.ResetZeroesEveryUnit :=
  fun s ⟨hs, _⟩ =>
    ⟨s.resetUnits.silent, rfl, rfl, List.length_map _, fun u hu => s.unit_resetUnits u (hs.lt_length hu)⟩

/-- Settles O40: the units at creation are N_DRUMS created units. -/
theorem creationValues : Obligations.CreationValues :=
  ⟨fun c => ⟨rfl, List.length_replicate, rfl, rfl, rfl, fun u _ => State.unit_created u c⟩, rfl, rfl⟩

/-- Settles O49: a created unit is at position 0, below every BPB, and holds no request. -/
theorem creationMeetsTheInvariant : Obligations.CreationMeetsTheInvariant := by
  have hcreated : ∀ c : Config, c.wf = true → (State.created c).Inv := fun c hwf => by
    obtain ⟨-, -, hbpb⟩ := Config.sizes_of_wf hwf
    refine ⟨hwf, List.length_replicate, fun u hu => ?_, fun u _ => ?_, fun u _ hstarted => ?_⟩
    · rw [State.unit_created]
      exact (hbpb u hu).1
    · rw [State.unit_created]
      rfl
    · rw [State.unit_created] at hstarted
      exact absurd hstarted Bool.false_ne_true
  exact ⟨hcreated, hcreated Config.rc (by decide)⟩

end Sys2Proof.Machine
